-- ==== Sys2Proof/Word.lean ====
section
/-! DEFINITION. The word types of the machine: a register slot is 16 bits (10_state.md R10), an
instruction word is 32 bits (30_encoding.md R45), and its four fields are bytes (00_scope.md R6). -/

namespace Sys2Proof

/-- A register slot, a literal operand or a word address: 16 bits (10_state.md R10, 30_encoding.md R57, 20_memory.md R30). -/
abbrev Word := BitVec 16

/-- One of the four bytes of an instruction word (00_scope.md R6). -/
abbrev Byte := BitVec 8

/-- An instruction word: 32 bits, fixed (30_encoding.md R45). -/
abbrev InstrWord := BitVec 32

end Sys2Proof
end

