-- ==== Sys2Proof/Syntax.lean ====
section
/-! DEFINITION. The instructions: one constructor per row of spec/opcode_table.json (00_scope.md R2,
30_encoding.md R60), and the eight register slots an operand can name (10_state.md R11). -/

namespace Sys2Proof

/-- The eight register slots (10_state.md R10, R11): 0 to 4 general purpose, 5 the base pointer in name only,
6 the instruction pointer, 7 the zero-flag register. -/
inductive Slot where
  | x0 | x1 | x2 | x3 | x4 | x5 | x6 | x7
  deriving DecidableEq, Repr

/-- The four operand layouts (30_encoding.md R50 to R54). -/
inductive Format where
  | N | RR | RI | L
  deriving DecidableEq, Repr

/-- An instruction with its operand fields. A register operand is the whole operand byte, as the word holds it
(30_encoding.md R47, R52, R60): a byte above 7 leaves it this instruction, which raises BadRegister
(90_conflicts.md C9); WellFormed says which bytes name a slot. -/
inductive Instr where
  /-- `n`: no operation (43_move_nop.md R117). -/
  | nop
  /-- `a rd,rs`: add register to register (41_arithmetic.md R96). -/
  | addReg (rd rs : Byte)
  /-- `A rd,imm`: add a literal to a register (41_arithmetic.md R97). -/
  | addImm (rd : Byte) (imm : Word)
  /-- `s rd,rs`: subtract register from register (41_arithmetic.md R98). -/
  | subReg (rd rs : Byte)
  /-- `S rd,imm`: subtract a literal from a register (41_arithmetic.md R99). -/
  | subImm (rd : Byte) (imm : Word)
  /-- `^ rd,rs`: bitwise exclusive or (42_bitwise.md R106). -/
  | xorReg (rd rs : Byte)
  /-- `| rd,rs`: bitwise inclusive or (42_bitwise.md R107). -/
  | orReg (rd rs : Byte)
  /-- `& rd,rs`: bitwise and (42_bitwise.md R108). -/
  | andReg (rd rs : Byte)
  /-- `m rd,rs`: copy a slot (43_move_nop.md R116). -/
  | move (rd rs : Byte)
  /-- `q`: end the run (44_control.md R126). -/
  | quit
  /-- `j imm`: jump to an absolute word address (44_control.md R127). -/
  | jump (imm : Word)
  /-- `jz imm`: jump when the zero-flag register is set (44_control.md R128). -/
  | jumpIfZero (imm : Word)
  deriving DecidableEq, Repr

/-- The operand layout of each instruction (30_encoding.md R55). -/
def Instr.format : Instr → Format
  | .nop => .N
  | .addReg _ _ => .RR
  | .addImm _ _ => .RI
  | .subReg _ _ => .RR
  | .subImm _ _ => .RI
  | .xorReg _ _ => .RR
  | .orReg _ _ => .RR
  | .andReg _ _ => .RR
  | .move _ _ => .RR
  | .quit => .N
  | .jump _ => .L
  | .jumpIfZero _ => .L

/-- The ALU class: add, subtract, bitwise and move (00_scope.md R9, 40_cycle.md R82). -/
def Instr.isAlu : Instr → Bool
  | .nop => false
  | .addReg _ _ => true
  | .addImm _ _ => true
  | .subReg _ _ => true
  | .subImm _ _ => true
  | .xorReg _ _ => true
  | .orReg _ _ => true
  | .andReg _ _ => true
  | .move _ _ => true
  | .quit => false
  | .jump _ => false
  | .jumpIfZero _ => false

/-- The first register operand byte of an instruction that has one (30_encoding.md R56). -/
def Instr.destByte : Instr → Option Byte
  | .nop => none
  | .addReg rd _ => some rd
  | .addImm rd _ => some rd
  | .subReg rd _ => some rd
  | .subImm rd _ => some rd
  | .xorReg rd _ => some rd
  | .orReg rd _ => some rd
  | .andReg rd _ => some rd
  | .move rd _ => some rd
  | .quit => none
  | .jump _ => none
  | .jumpIfZero _ => none

end Sys2Proof
end

