-- ==== Sys2Proof/WellFormed.lean ====
section
/-! DEFINITION. Which instruction terms have operands that name a slot: every register byte is at most 7
(30_encoding.md R47, R58, R63). Literals are 16 bits by their type (30_encoding.md R57). -/

namespace Sys2Proof

/-- A register operand byte names a slot when it is 0 to 7 (30_encoding.md R58). -/
abbrev regByteOk (b : Byte) : Prop := b.toNat ≤ 7

/-- Every register operand of the instruction names a slot (30_encoding.md R63): one check per register byte. -/
def Instr.wellFormed : Instr → Bool
  | .nop => true
  | .addReg rd rs => decide (regByteOk rd) && decide (regByteOk rs)
  | .addImm rd _ => decide (regByteOk rd)
  | .subReg rd rs => decide (regByteOk rd) && decide (regByteOk rs)
  | .subImm rd _ => decide (regByteOk rd)
  | .xorReg rd rs => decide (regByteOk rd) && decide (regByteOk rs)
  | .orReg rd rs => decide (regByteOk rd) && decide (regByteOk rs)
  | .andReg rd rs => decide (regByteOk rd) && decide (regByteOk rs)
  | .move rd rs => decide (regByteOk rd) && decide (regByteOk rs)
  | .quit => true
  | .jump _ => true
  | .jumpIfZero _ => true

end Sys2Proof
end

