-- ==== Sys2Proof/Decode.lean ====
section
/-! DEFINITION. The decoder of 30_encoding.md R61, total on 32-bit words, and after it the encoder: the canonical
word of an instruction (R48, R60). -/

namespace Sys2Proof

/-! ### The fields of a word (00_scope.md R6) -/

/-- Byte 0, `w[31:24]`: the opcode. -/
def byte0 (w : InstrWord) : Byte := w.extractLsb' 24 8

/-- Byte 1, `w[23:16]`: the first operand byte. -/
def byte1 (w : InstrWord) : Byte := w.extractLsb' 16 8

/-- Byte 2, `w[15:8]`: the second operand byte. -/
def byte2 (w : InstrWord) : Byte := w.extractLsb' 8 8

/-- Byte 3, `w[7:0]`: the third operand byte. -/
def byte3 (w : InstrWord) : Byte := w.extractLsb' 0 8

/-- A literal in two consecutive bytes, the first the more significant (20_memory.md R33, 30_encoding.md R47, R57). -/
def literal (hi lo : Byte) : Word := hi ++ lo

/-- The word with the given four bytes, byte 0 the most significant (00_scope.md R6). -/
def packBytes (b0 b1 b2 b3 : Byte) : InstrWord := b0 ++ b1 ++ b2 ++ b3

/-! ### The decoder -/

/-- What a word decodes to (30_encoding.md R61): an instruction, the BadRegister fault, or no instruction at all. -/
inductive Decoded where
  | instr (i : Instr)
  | badRegister
  | unrecognised (op : Byte)
  deriving DecidableEq, Repr

/-- Formats RR: both register bytes are range-checked, byte 3 is not examined (30_encoding.md R52, R58, R61). -/
def decodeRR (mk : Byte → Byte → Instr) (w : InstrWord) : Decoded :=
  if 7 < (byte1 w).toNat ∨ 7 < (byte2 w).toNat then .badRegister else .instr (mk (byte1 w) (byte2 w))

/-- Format RI: byte 1 is range-checked, bytes 2 and 3 are the literal (30_encoding.md R53, R57, R61). -/
def decodeRI (mk : Byte → Word → Instr) (w : InstrWord) : Decoded :=
  if 7 < (byte1 w).toNat then .badRegister else .instr (mk (byte1 w) (literal (byte2 w) (byte3 w)))

/-- Format L: bytes 1 and 2 are the literal, byte 3 is not examined (30_encoding.md R54, R57, R61). -/
def decodeL (mk : Word → Instr) (w : InstrWord) : Decoded := .instr (mk (literal (byte1 w) (byte2 w)))

/-- The decoder (30_encoding.md R61): the instruction is selected by byte 0 alone (R60), and the opcode is looked at
before any register byte (60_exceptions.md R148). -/
def decode (w : InstrWord) : Decoded :=
  match (byte0 w).toNat with
  | 0 => .instr .nop
  | 1 => decodeRR .addReg w
  | 2 => decodeRI .addImm w
  | 3 => decodeRR .subReg w
  | 4 => decodeRI .subImm w
  | 5 => decodeRR .xorReg w
  | 6 => decodeRR .orReg w
  | 7 => decodeRR .andReg w
  | 8 => decodeRR .move w
  | 9 => .instr .quit
  | 10 => decodeL .jump w
  | 11 => decodeL .jumpIfZero w
  | _ => .unrecognised (byte0 w)

/-! ### The encoder -/

/-- The opcode byte of each instruction: the map of 30_encoding.md R60 (92_eei_decisions.md D1; log 11). -/
def Instr.opcode : Instr → Byte
  | .nop => 0
  | .addReg _ _ => 1
  | .addImm _ _ => 2
  | .subReg _ _ => 3
  | .subImm _ _ => 4
  | .xorReg _ _ => 5
  | .orReg _ _ => 6
  | .andReg _ _ => 7
  | .move _ _ => 8
  | .quit => 9
  | .jump _ => 10
  | .jumpIfZero _ => 11

/-- The more significant byte of a literal. -/
def literalHi (v : Word) : Byte := v.extractLsb' 8 8

/-- The less significant byte of a literal. -/
def literalLo (v : Word) : Byte := v.extractLsb' 0 8

/-- Format N (30_encoding.md R51): no operand bytes. -/
def encodeN (op : Byte) : InstrWord := packBytes op 0 0 0

/-- Format RR (30_encoding.md R52): `rd` in byte 1, `rs` in byte 2. -/
def encodeRR (op rd rs : Byte) : InstrWord := packBytes op rd rs 0

/-- Format RI (30_encoding.md R53): `rd` in byte 1, the literal in bytes 2 and 3. -/
def encodeRI (op rd : Byte) (imm : Word) : InstrWord := packBytes op rd (literalHi imm) (literalLo imm)

/-- Format L (30_encoding.md R54): the literal in bytes 1 and 2. -/
def encodeL (op : Byte) (imm : Word) : InstrWord := packBytes op (literalHi imm) (literalLo imm) 0

/-- The canonical word of an instruction: unused bytes are zero (30_encoding.md R48, R60). -/
def encode (i : Instr) : InstrWord :=
  match i with
  | .nop => encodeN i.opcode
  | .addReg rd rs => encodeRR i.opcode rd rs
  | .addImm rd imm => encodeRI i.opcode rd imm
  | .subReg rd rs => encodeRR i.opcode rd rs
  | .subImm rd imm => encodeRI i.opcode rd imm
  | .xorReg rd rs => encodeRR i.opcode rd rs
  | .orReg rd rs => encodeRR i.opcode rd rs
  | .andReg rd rs => encodeRR i.opcode rd rs
  | .move rd rs => encodeRR i.opcode rd rs
  | .quit => encodeN i.opcode
  | .jump imm => encodeL i.opcode imm
  | .jumpIfZero imm => encodeL i.opcode imm

/-! ### Words numbered as spec/opcode_table.json numbers them -/

/-- The instruction word whose low `nbits` bits are those of `w` and whose other bits are zero: the table's rows are
32-bit words, bit 0 the least significant (00_scope.md R6; log 14). -/
def tableWord (nbits w : Nat) : InstrWord := BitVec.ofNat 32 (w % 2 ^ nbits)

/-- The instruction the decoder reads from a word given in the table's numbering, none where it refuses. No
instruction is longer than 32 bits (30_encoding.md R45), so more bits than that are refused (log 14). -/
def decodeTableWord (nbits w : Nat) : Option Instr :=
  if 32 < nbits then none
  else
    match decode (tableWord nbits w) with
    | .instr i => some i
    | .badRegister => none
    | .unrecognised _ => none

end Sys2Proof
end

