-- ==== Sys2Proof/Machine/Alu.lean ====
section
/-! DEFINITION. The arithmetic and logic unit: one 16-bit result from an operation and two 16-bit operands
(40_cycle.md R81). -/

namespace Sys2Proof.Machine

/-- The operations of the ALU class; the register and literal forms of add and of subtract share one (40_cycle.md R81). -/
inductive AluOp where
  | add
  | sub
  | xor
  | or
  | and
  | pass
  deriving DecidableEq, Repr

/-- `alu(op, v1, v2)` (40_cycle.md R81): sums and differences are taken modulo 65536 (41_arithmetic.md R100), the
difference is `v1 - v2` (30_encoding.md R56), the bitwise operations act on all 16 bits (42_bitwise.md R105), and move
passes its second operand (43_move_nop.md R116). -/
def alu (op : AluOp) (v1 v2 : Word) : Word :=
  match op with
  | .add => v1 + v2
  | .sub => v1 - v2
  | .xor => v1 ^^^ v2
  | .or => v1 ||| v2
  | .and => v1 &&& v2
  | .pass => v2

end Sys2Proof.Machine
end

