-- ==== Sys2Proof/Config.lean ====
section
/-! DEFINITION. The parameters of 00_scope.md R5 that are not the program itself. The spec makes them
arguments of the model; here they are plain data that State carries and no cycle changes
(10_state.md R29; log 1), so a statement about every state is a statement about every value of them. -/

namespace Sys2Proof

/-- `NOP_ZF`: what the nop does to the zero-flag register (00_scope.md R5, 43_move_nop.md R117; log 6). -/
inductive NopZf where
  | preserve
  | clear
  deriving DecidableEq, Repr

/-- `UNKNOWN_OPCODE_POLICY`: what an opcode byte of 12 to 255 does (00_scope.md R5, 60_exceptions.md R143, R147; log 7). -/
inductive UnknownOpcodePolicy where
  | fault
  | legacyNop
  deriving DecidableEq, Repr

/-- The static parameters of a run (00_scope.md R5). -/
structure Config where
  /-- `CAPACITY`: the number of words of program memory (20_memory.md R30). -/
  capacity : Nat
  /-- `NOP_ZF`. -/
  nopZf : NopZf
  /-- `UNKNOWN_OPCODE_POLICY`. -/
  unknownOpcode : UnknownOpcodePolicy
  /-- `OOB_IS_ERROR`: whether the host classes the out-of-bounds halt as an error (60_exceptions.md R142). -/
  oobIsError : Bool
  deriving DecidableEq, Repr

/-- The range the spec gives `CAPACITY`: 1 to 65536 (00_scope.md R5). -/
abbrev Config.wf (c : Config) : Prop := 1 ≤ c.capacity ∧ c.capacity ≤ 65536

/-- The parameters State.reset carries. The three policies are the spec's defaults (92_eei_decisions.md D6, D7, D9;
logs 6, 7, 8). `CAPACITY` is OPEN in the spec (D12); DESIGN CHOICE: 65536, the whole 16-bit address space (log 4, unsafe). -/
def Config.default : Config where
  capacity := 65536
  nopZf := .preserve
  unknownOpcode := .fault
  oobIsError := true

end Sys2Proof
end

