-- ==== Sys2Proof/Machine/State.lean ====
section
/-! DEFINITION. The state of the machine: the eight register slots and the run status (10_state.md R10, R22), and with
them the parameters of the run, which no cycle changes (00_scope.md R5, 10_state.md R29; log 1). Then the state after
reset (10_state.md R28). -/

namespace Sys2Proof.Machine

/-- The register file: eight slots of 16 bits (10_state.md R10, R11). -/
structure RegFile where
  /-- `r0`, general purpose (10_state.md R14). -/
  x0 : Word
  /-- `r1`, general purpose. -/
  x1 : Word
  /-- `r2`, general purpose. -/
  x2 : Word
  /-- `r3`, general purpose. -/
  x3 : Word
  /-- `r4`, general purpose. -/
  x4 : Word
  /-- `r5`, "base pointer": an alias and nothing more (10_state.md R16). -/
  x5 : Word
  /-- `r6`, the instruction pointer: a word address (10_state.md R17). -/
  x6 : Word
  /-- `r7`, the zero-flag register (10_state.md R20). -/
  x7 : Word
  deriving DecidableEq, Repr

/-- The run status (10_state.md R22). -/
inductive Status where
  | running
  | quit
  | outOfBounds
  | illegalOpcode
  | badRegister
  deriving DecidableEq, Repr

/-- The four events that end a run (60_exceptions.md R140, R141): two halts and two faults. -/
inductive Event where
  | quit
  | outOfBounds
  | illegalOpcode
  | badRegister
  deriving DecidableEq, Repr

/-- One word of program memory at its word address (20_memory.md R30; log 2). -/
abbrev ProgramCell := Nat × InstrWord

/-- Program memory: the words that have been supplied, with their word addresses (20_memory.md R30, R32). An address
that is not listed has no value (log 3). -/
structure Memory where
  cells : List ProgramCell
  deriving DecidableEq, Repr

/-- The state: the register file, the status, and the run's parameters `PROGRAM` and the rest of 00_scope.md R5. -/
structure State where
  regs : RegFile
  status : Status
  program : Memory
  config : Config
  deriving DecidableEq, Repr

/-- Where a step stops. None of the machine's own halts and faults is here: they are next states whose status says
which (60_exceptions.md R145, R146; log 10). -/
inductive Fault where
  /-- Raised by the fetch of a cycle whose address is in range but for which no program word has been supplied. The
  spec makes `PROGRAM` total and says nothing of words nobody wrote (20_memory.md R32, 93_implementation_defined.md
  U5). Safe: the model stops where the hardware goes on (log 3). -/
  | noProgramWord (address : Word)
  deriving DecidableEq, Repr

/-- Why an instruction has no meaning. -/
inductive Refusal where
  /-- An instruction whose meaning is not written. Raised by no arm: every row of the opcode table has its meaning. Safe. -/
  | notModelled (mnemonic : String)
  deriving DecidableEq, Repr

/-- The state after reset (10_state.md R28): every slot zero but the instruction pointer, which holds `ENTRY`, and the
status Running. DESIGN CHOICE: `ENTRY` is 0 here (log 5, unsafe); no program is loaded (log 12); the parameters are
Config.default. Reset with any `ENTRY` from any state is State.resetTo. -/
def State.reset : State where
  regs := { x0 := 0, x1 := 0, x2 := 0, x3 := 0, x4 := 0, x5 := 0, x6 := 0, x7 := 0 }
  status := .running
  program := { cells := [] }
  config := Config.default

end Sys2Proof.Machine
end

