-- ==== Sys2Proof/Machine/Ops.lean ====
section
/-! DEFINITION. The named operations over program memory and registers, and the one operation that ends a run. -/

namespace Sys2Proof.Machine

/-! ### Program memory (20_memory.md R30 to R32) -/

/-- The word listed for an address, if one is. -/
def lookupWord : List ProgramCell → Nat → Option InstrWord
  | [], _ => none
  | (k, w) :: rest, a => if k = a then some w else lookupWord rest a

/-- Put a word at an address in a list kept in rising order of addresses. -/
def insertWord : List ProgramCell → Nat → InstrWord → List ProgramCell
  | [], a, w => [(a, w)]
  | (k, v) :: rest, a, w =>
    if a < k then (a, w) :: (k, v) :: rest
    else if a = k then (a, w) :: rest
    else (k, v) :: insertWord rest a w

/-- `PROGRAM(a)` (20_memory.md R31): the word at word address `a`. What an unlisted address reads as is decided here and
nowhere else: it has no value (log 3). -/
def Memory.read (m : Memory) (a : Nat) : Option InstrWord := lookupWord m.cells a

/-- The host's loading of one word; no instruction does this (20_memory.md R38, R43). -/
def Memory.write (m : Memory) (a : Nat) (w : InstrWord) : Memory := { cells := insertWord m.cells a w }

/-- The words of an assembled program at addresses 0 upward (20_memory.md R32, 70_reset_and_hazards.md R163). -/
def Memory.ofWords (ws : List InstrWord) : Memory := { cells := ws.zipIdx.map fun p => (p.2, p.1) }

/-- The canonical form: addresses strictly rising, so that equal memories are equal data. -/
abbrev Memory.wf (m : Memory) : Prop := m.cells.Pairwise fun c d => c.1 < d.1

/-! ### Registers (10_state.md R10 to R14) -/

/-- The content of a slot. -/
def RegFile.read (r : RegFile) : Slot → Word
  | .x0 => r.x0
  | .x1 => r.x1
  | .x2 => r.x2
  | .x3 => r.x3
  | .x4 => r.x4
  | .x5 => r.x5
  | .x6 => r.x6
  | .x7 => r.x7

/-- The register file with one slot replaced. No slot is hard-wired (10_state.md R14). -/
def RegFile.write (r : RegFile) (i : Slot) (v : Word) : RegFile :=
  match i with
  | .x0 => { r with x0 := v }
  | .x1 => { r with x1 := v }
  | .x2 => { r with x2 := v }
  | .x3 => { r with x3 := v }
  | .x4 => { r with x4 := v }
  | .x5 => { r with x5 := v }
  | .x6 => { r with x6 := v }
  | .x7 => { r with x7 := v }

/-- `x[i]` (00_scope.md R7). -/
def State.read (s : State) (i : Slot) : Word := s.regs.read i

/-- `x[i] <- v` (00_scope.md R7, 10_state.md R13). -/
def State.write (s : State) (i : Slot) (v : Word) : State := { s with regs := s.regs.write i v }

/-- `pc`, another name for `x[6]` (00_scope.md R7, 10_state.md R17). -/
def State.pc (s : State) : Word := s.read .x6

/-- `zf`, another name for `x[7]` (00_scope.md R7, 10_state.md R20). -/
def State.zf (s : State) : Word := s.read .x7

/-- The instruction-pointer advance: `x[6] <- (x[6] + 1) mod 65536`, from slot 6 as it then stands (40_cycle.md R83,
10_state.md R19). -/
def State.advance (s : State) : State := s.write .x6 (s.pc + 1)

/-- `pc <- t` (44_control.md R127, R129): the target is stored whole and not checked (R131). -/
def State.jumpTo (s : State) (t : Word) : State := s.write .x6 t

/-! ### The fetch (40_cycle.md R76, R77) -/

/-- The range check: the instruction pointer lies in `[0, CAPACITY)` (40_cycle.md R76). -/
def State.inRange (s : State) : Bool := decide (s.pc.toNat < s.config.capacity)

/-- `Fetch(a)` at the instruction pointer (40_cycle.md R77, 20_memory.md R31). -/
def State.fetch (s : State) : Option InstrWord := s.program.read s.pc.toNat

/-! ### The end of a run (60_exceptions.md R140 to R146)

There is no trap entry and no return (R149, R151): taking a halt or a fault saves nothing, goes nowhere and writes no
register. -/

/-- The status each event sets (10_state.md R22, 60_exceptions.md R141). -/
def Event.status : Event → Status
  | .quit => .quit
  | .outOfBounds => .outOfBounds
  | .illegalOpcode => .illegalOpcode
  | .badRegister => .badRegister

/-- `raise F` and `halt H`: no register is written, in particular slot 6 is not advanced, and the status is set
(60_exceptions.md R145, R146; "A halt and a fault differ only in their code and in how the host classes them"). -/
def State.stop (s : State) (e : Event) : State := { s with status := e.status }

/-! ### Reset and loading (70_reset_and_hazards.md R160, R163) -/

/-- Reset with the value on the `entry` port, from any state (10_state.md R28, 70_reset_and_hazards.md R160): every
slot zero but the instruction pointer, the status Running. The run's parameters are the host's (10_state.md R29). -/
def State.resetTo (s : State) (entry : Word) : State :=
  { s with
    regs := { x0 := 0, x1 := 0, x2 := 0, x3 := 0, x4 := 0, x5 := 0, x6 := entry, x7 := 0 }
    status := .running }

/-- A state in which the next cycle fetches the given word (log 12): the word is put at the instruction pointer, the
status is Running, and `CAPACITY` is raised to take the address in where it does not. -/
def State.placeFetchWord (s : State) (w : InstrWord) : State :=
  { s with
    status := .running
    program := s.program.write s.pc.toNat w
    config := { s.config with capacity := max s.config.capacity (s.pc.toNat + 1) } }

end Sys2Proof.Machine
end

