-- ==== Sys2Proof/Machine/Flags.lean ====
section
/-! DEFINITION. The one flag of the machine, the zero flag, which is register slot 7 (10_state.md R20). -/

namespace Sys2Proof.Machine

/-- `[v = 0]`: the number 1 if the value is zero, else the number 0 (00_scope.md R7, 40_cycle.md R82). -/
def zeroFlag (v : Word) : Word := if v = 0 then 1 else 0

/-- The flag update: `x[7] <- [x[rd] = 0]`, the destination slot read after it was written (40_cycle.md R82). -/
def State.updateZf (s : State) (rd : Slot) : State := s.write .x7 (zeroFlag (s.read rd))

/-- "flags still zeroed": `x[7] <- 0` (43_move_nop.md R117 under NOP_ZF = clear, 60_exceptions.md R147). -/
def State.clearZf (s : State) : State := s.write .x7 0

/-- "the zero-flag register is set", read as `x[7] ≠ 0` (44_control.md R128, 92_eei_decisions.md D11; log 11). -/
def State.zfSet (s : State) : Bool := decide (s.zf ≠ 0)

end Sys2Proof.Machine
end

