-- ==== Sys2Proof/Machine/Operands.lean ====
section
/-! DEFINITION. The operand forms: a register byte names a slot or faults (30_encoding.md R58, R63), and the two forms
of the ALU class, register with register (RR) and register with literal (RI), run the common part of the cycle:
read operands, write the destination, update the flag, advance (40_cycle.md R79 to R83). -/

namespace Sys2Proof.Machine

/-- The slot a register operand byte names, none for 8 to 255: the byte is not taken modulo 8 (30_encoding.md R58). -/
def slotOf (b : Byte) : Option Slot :=
  match b.toNat with
  | 0 => some .x0
  | 1 => some .x1
  | 2 => some .x2
  | 3 => some .x3
  | 4 => some .x4
  | 5 => some .x5
  | 6 => some .x6
  | 7 => some .x7
  | _ => none

/-- The operand byte of a slot: its index (30_encoding.md R47). -/
def slotByte : Slot → Byte
  | .x0 => 0
  | .x1 => 1
  | .x2 => 2
  | .x3 => 3
  | .x4 => 4
  | .x5 => 5
  | .x6 => 6
  | .x7 => 7

/-- The cycle of the ALU class once its operands are known (40_cycle.md R85): both operand values are read before any
write (R79), then the destination is written, then the flag, then the instruction pointer (70_reset_and_hazards.md R167). -/
def aluCycle (op : AluOp) (rd : Slot) (v2 : Word) (s : State) : State :=
  (((s.write rd (alu op (s.read rd) v2)).updateZf rd).advance)

/-- Format RR: a register byte out of range raises BadRegister and nothing is written (60_exceptions.md R144; log 13). -/
def execRR (op : AluOp) (rd rs : Byte) (s : State) : Host.Outcome State Fault Refusal :=
  match slotOf rd, slotOf rs with
  | some d, some r => .next (aluCycle op d (s.read r) s)
  | _, _ => .next (s.stop .badRegister)

/-- Format RI: the literal is used as it stands (30_encoding.md R57); a register byte out of range raises BadRegister. -/
def execRI (op : AluOp) (rd : Byte) (imm : Word) (s : State) : Host.Outcome State Fault Refusal :=
  match slotOf rd with
  | some d => .next (aluCycle op d imm s)
  | none => .next (s.stop .badRegister)

end Sys2Proof.Machine
end

