-- ==== Sys2Proof/Machine/Arithmetic.lean ====
section
/-! DEFINITION. The arithmetic instructions (41_arithmetic.md). -/

namespace Sys2Proof.Machine

/-- `a rd,rs` (41_arithmetic.md R96): `x[rd] <- (x[rd] + x[rs]) mod 65536`, flag, advance. -/
def execAddReg (rd rs : Byte) (s : State) : Host.Outcome State Fault Refusal := execRR .add rd rs s

/-- `A rd,imm` (41_arithmetic.md R97): `x[rd] <- (x[rd] + imm) mod 65536`, flag, advance. -/
def execAddImm (rd : Byte) (imm : Word) (s : State) : Host.Outcome State Fault Refusal := execRI .add rd imm s

/-- `s rd,rs` (41_arithmetic.md R98): `x[rd] <- (x[rd] - x[rs]) mod 65536`, flag, advance. -/
def execSubReg (rd rs : Byte) (s : State) : Host.Outcome State Fault Refusal := execRR .sub rd rs s

/-- `S rd,imm` (41_arithmetic.md R99): `x[rd] <- (x[rd] - imm) mod 65536`, flag, advance. -/
def execSubImm (rd : Byte) (imm : Word) (s : State) : Host.Outcome State Fault Refusal := execRI .sub rd imm s

end Sys2Proof.Machine
end

