-- ==== Sys2Proof/Machine/Bitwise.lean ====
section
/-! DEFINITION. The bitwise instructions (42_bitwise.md). -/

namespace Sys2Proof.Machine

/-- `^ rd,rs` (42_bitwise.md R106): `x[rd] <- x[rd] xor x[rs]`, flag, advance. -/
def execXorReg (rd rs : Byte) (s : State) : Host.Outcome State Fault Refusal := execRR .xor rd rs s

/-- `| rd,rs` (42_bitwise.md R107): `x[rd] <- x[rd] or x[rs]`, flag, advance. -/
def execOrReg (rd rs : Byte) (s : State) : Host.Outcome State Fault Refusal := execRR .or rd rs s

/-- `& rd,rs` (42_bitwise.md R108): `x[rd] <- x[rd] and x[rs]`, flag, advance. -/
def execAndReg (rd rs : Byte) (s : State) : Host.Outcome State Fault Refusal := execRR .and rd rs s

end Sys2Proof.Machine
end

