-- ==== Sys2Proof/Machine/Control.lean ====
section
/-! DEFINITION. Control transfer and halt (44_control.md). -/

namespace Sys2Proof.Machine

/-- `q` (44_control.md R126, 40_cycle.md R84): the halt Quit; no register changes. -/
def execQuit (s : State) : Host.Outcome State Fault Refusal := .next (s.stop .quit)

/-- `j imm` (44_control.md R127): `x[6] <- imm`, whatever the target. -/
def execJump (imm : Word) (s : State) : Host.Outcome State Fault Refusal := .next (s.jumpTo imm)

/-- `jz imm` (44_control.md R128): the target if the zero-flag register is set, else the normal advance. -/
def execJumpIfZero (imm : Word) (s : State) : Host.Outcome State Fault Refusal :=
  if s.zfSet then .next (s.jumpTo imm) else .next s.advance

end Sys2Proof.Machine
end

