-- ==== Sys2Proof/Machine/MoveNop.lean ====
section
/-! DEFINITION. Move and nop (43_move_nop.md). -/

namespace Sys2Proof.Machine

/-- `m rd,rs` (43_move_nop.md R116): `x[rd] <- x[rs]`, flag, advance; the destination is not read. -/
def execMove (rd rs : Byte) (s : State) : Host.Outcome State Fault Refusal := execRR .pass rd rs s

/-- `n` (43_move_nop.md R117): the zero-flag register is cleared only under NOP_ZF = clear (log 6); then advance. -/
def execNop (s : State) : Host.Outcome State Fault Refusal :=
  match s.config.nopZf with
  | .preserve => .next s.advance
  | .clear => .next s.clearZf.advance

end Sys2Proof.Machine
end

