-- ==== Sys2Proof/Machine/Dispatch.lean ====
section
/-! DEFINITION. The dispatch on the opcode (40_cycle.md R80): one arm per instruction. -/

namespace Sys2Proof.Machine

def exec (i : Instr) (s : State) : Host.Outcome State Fault Refusal :=
  match i with
  | .nop => Sys2Proof.Machine.execNop s
  | .addReg rd rs => Sys2Proof.Machine.execAddReg rd rs s
  | .addImm rd imm => Sys2Proof.Machine.execAddImm rd imm s
  | .subReg rd rs => Sys2Proof.Machine.execSubReg rd rs s
  | .subImm rd imm => Sys2Proof.Machine.execSubImm rd imm s
  | .xorReg rd rs => Sys2Proof.Machine.execXorReg rd rs s
  | .orReg rd rs => Sys2Proof.Machine.execOrReg rd rs s
  | .andReg rd rs => Sys2Proof.Machine.execAndReg rd rs s
  | .move rd rs => Sys2Proof.Machine.execMove rd rs s
  | .quit => Sys2Proof.Machine.execQuit s
  | .jump imm => Sys2Proof.Machine.execJump imm s
  | .jumpIfZero imm => Sys2Proof.Machine.execJumpIfZero imm s

end Sys2Proof.Machine
end

