-- ==== Sys2Proof/Machine/Cycle.lean ====
section
/-! DEFINITION. One cycle of a running machine (40_cycle.md R75 to R85): range check, fetch, decode, dispatch. -/

namespace Sys2Proof.Machine

/-- An opcode byte of 12 to 255: the IllegalOpcode fault (60_exceptions.md R143), or under the policy legacy_nop the
flag cleared and the instruction pointer advanced (60_exceptions.md R147; log 7). -/
def execUnrecognised (s : State) : Host.Outcome State Fault Refusal :=
  match s.config.unknownOpcode with
  | .fault => .next (s.stop .illegalOpcode)
  | .legacyNop => .next s.clearZf.advance

/-- What the cycle does with a decoded word (40_cycle.md R78, R80). -/
def execDecoded (d : Decoded) (s : State) : Host.Outcome State Fault Refusal :=
  match d with
  | .instr i => exec i s
  | .badRegister => .next (s.stop .badRegister)
  | .unrecognised _ => execUnrecognised s

/-- The cycle of a running machine (40_cycle.md R85): the out-of-bounds halt (R76), or fetch, decode and dispatch. -/
def cycle (s : State) : Host.Outcome State Fault Refusal :=
  if s.inRange then
    match s.fetch with
    | some w => execDecoded (decode w) s
    | none => .fault (.noProgramWord s.pc)
  else .next (s.stop .outOfBounds)

/-- One rising edge of `clk` with `rst = 0` (10_state.md R26): a cycle when the status is Running, and otherwise nothing
changes (10_state.md R23; log 9). -/
def edge (s : State) : Host.Outcome State Fault Refusal :=
  match s.status with
  | .running => cycle s
  | .quit => .next s
  | .outOfBounds => .next s
  | .illegalOpcode => .next s
  | .badRegister => .next s

end Sys2Proof.Machine
end

