-- ==== Sys2Proof/Machine/Step.lean ====
section
/-! DEFINITION. The step of the machine, one rising clock edge with `rst = 0` (40_cycle.md R75), and the state in which
a given word is the next to be fetched. -/

namespace Sys2Proof.Machine

/-- One step: one rising edge of `clk` with `rst = 0` (10_state.md R26, 40_cycle.md R85). -/
def step (s : State) : Host.Outcome State Fault Refusal := edge s

/-- `s` with an instruction, given in the table's numbering, where the next cycle fetches (log 12). -/
def State.withFetchWord (s : State) (nbits w : Nat) : State := s.placeFetchWord (tableWord nbits w)

end Sys2Proof.Machine
end

