-- ==== Sys2Proof/Machine/Assembler.lean ====
section
/-! DEFINITION. The lexer and the assembler (30_encoding.md R66 to R71): software outside the block (00_scope.md R4), no part
of a step, kept because the spec gives their rules. Where the spec leaves a point open they refuse (log 17). -/

namespace Sys2Proof.Machine

/-- The character classes of the lexer (30_encoding.md R67). -/
inductive CharClass where
  | opcodeStarter
  | registerMarker
  | digit
  | commentStarter
  | newline
  | whitespace
  | unrecognized
  deriving DecidableEq, Repr

/-- A token (30_encoding.md R67): its kind and its value. -/
inductive Token where
  | opcode (code : Byte)
  | register (index : Byte)
  | literal (value : Word)
  deriving DecidableEq, Repr

/-- The kinds of an argument signature (30_encoding.md R46). -/
inductive ArgKind where
  | register
  | literal
  deriving DecidableEq, Repr

/-- Why a program text gets no words. -/
inductive AsmError where
  /-- A byte of class unrecognized outside the skip after a mnemonic: the spec gives no rule (R67, U12). Safe. -/
  | strayCharacter
  /-- `r` not followed by a digit 0 to 7: the spec gives no rule (R67, U11). Safe. -/
  | badRegisterToken
  /-- "fatal unexpected end of tokens" (R69, R70). -/
  | endOfTokens
  /-- A token of the wrong kind: the original goes on with a corrupted word whose bytes the spec does not give (R65, U10). Safe. -/
  | kindMismatch
  deriving DecidableEq, Repr

/-! ### The lexer -/

/-- The opcode code of a one-character mnemonic (30_encoding.md R60, R66); a lone `j` is jump. -/
def mnemonicCode (c : Char) : Option Byte :=
  match c with
  | 'n' => some 0
  | 'a' => some 1
  | 'A' => some 2
  | 's' => some 3
  | 'S' => some 4
  | '^' => some 5
  | '|' => some 6
  | '&' => some 7
  | 'm' => some 8
  | 'q' => some 9
  | 'j' => some 10
  | _ => none

/-- What a digit adds to a literal under "multiply-and-add" (30_encoding.md R67): its distance from the digit zero. -/
def digitValue (c : Char) : Option Nat :=
  if '0' ≤ c ∧ c ≤ '9' then some (c.toNat - '0'.toNat) else none

/-- The class of a character (30_encoding.md R66, R67): comma, space and tab are whitespace. A `z` on its own is in no class
the spec names and counts as unrecognized (log 17). -/
def charClass (c : Char) : CharClass :=
  if (mnemonicCode c).isSome then .opcodeStarter
  else if (digitValue c).isSome then .digit
  else
    match c with
    | 'r' => .registerMarker
    | ';' => .commentStarter
    | '\n' => .newline
    | ' ' => .whitespace
    | '\t' => .whitespace
    | ',' => .whitespace
    | _ => .unrecognized

/-- Where the lexer stands inside a token. -/
inductive LexMode where
  | start
  /-- After `j`: one character of lookahead tells `jz` from `j` (R67). -/
  | afterJ
  /-- After a mnemonic: further opcode or unrecognized characters are absorbed (R67). -/
  | skip
  /-- After the register marker. -/
  | afterR
  /-- Inside a run of digits with the value so far. -/
  | number (value : Nat)
  | comment
  deriving DecidableEq, Repr

/-- One character at the start of a token (30_encoding.md R67). -/
def lexStart (c : Char) : Except AsmError (List Token × LexMode) :=
  match charClass c with
  | .opcodeStarter =>
    if c = 'j' then .ok ([], .afterJ)
    else
      match mnemonicCode c with
      | some op => .ok ([.opcode op], .skip)
      | none => .error .strayCharacter
  | .registerMarker => .ok ([], .afterR)
  | .digit =>
    match digitValue c with
    | some d => .ok ([], .number d)
    | none => .error .strayCharacter
  | .commentStarter => .ok ([], .comment)
  | .newline => .ok ([], .start)
  | .whitespace => .ok ([], .start)
  | .unrecognized => .error .strayCharacter

/-- One character after a mnemonic (30_encoding.md R67). -/
def lexSkip (c : Char) : Except AsmError (List Token × LexMode) :=
  match charClass c with
  | .opcodeStarter => .ok ([], .skip)
  | .unrecognized => .ok ([], .skip)
  | .registerMarker => lexStart c
  | .digit => lexStart c
  | .commentStarter => lexStart c
  | .newline => lexStart c
  | .whitespace => lexStart c

/-- Put tokens in front of what a lexer step gives. -/
def emitTokens (ts : List Token) (r : Except AsmError (List Token × LexMode)) :
    Except AsmError (List Token × LexMode) :=
  match r with
  | .ok p => .ok (ts ++ p.1, p.2)
  | .error e => .error e

/-- One character in a given mode (30_encoding.md R67): the tokens it completes and the mode after it. A literal is
accumulated modulo 65536. -/
def lexChar (m : LexMode) (c : Char) : Except AsmError (List Token × LexMode) :=
  match m with
  | .start => lexStart c
  | .skip => lexSkip c
  | .afterJ => if c = 'z' then .ok ([.opcode 11], .skip) else emitTokens [.opcode 10] (lexSkip c)
  | .afterR =>
    match digitValue c with
    | some d => if d ≤ 7 then .ok ([.register (BitVec.ofNat 8 d)], .start) else .error .badRegisterToken
    | none => .error .badRegisterToken
  | .number v =>
    match digitValue c with
    | some d => .ok ([], .number ((v * 10 + d) % 65536))
    | none => emitTokens [.literal (BitVec.ofNat 16 v)] (lexStart c)
  | .comment => if c = '\n' then .ok ([], .start) else .ok ([], .comment)

/-- The tokens still owed at the end of the text. -/
def lexEnd (m : LexMode) : Except AsmError (List Token) :=
  match m with
  | .start => .ok []
  | .skip => .ok []
  | .comment => .ok []
  | .afterJ => .ok [.opcode 10]
  | .number v => .ok [.literal (BitVec.ofNat 16 v)]
  | .afterR => .error .badRegisterToken

/-- The lexer from a given mode. -/
def lexFrom (m : LexMode) : List Char → Except AsmError (List Token)
  | [] => lexEnd m
  | c :: cs =>
    match lexChar m c with
    | .error e => .error e
    | .ok (ts, m') =>
      match lexFrom m' cs with
      | .ok rest => .ok (ts ++ rest)
      | .error e => .error e

/-- The lexer (30_encoding.md R67). -/
def lex (text : List Char) : Except AsmError (List Token) := lexFrom .start text

/-! ### The assembler -/

/-- The argument signature of an opcode code (30_encoding.md R55). -/
def signature (op : Byte) : List ArgKind :=
  match op.toNat with
  | 1 => [.register, .register]
  | 2 => [.register, .literal]
  | 3 => [.register, .register]
  | 4 => [.register, .literal]
  | 5 => [.register, .register]
  | 6 => [.register, .register]
  | 7 => [.register, .register]
  | 8 => [.register, .register]
  | 10 => [.literal]
  | 11 => [.literal]
  | _ => []

/-- The bytes a token puts at the next available byte offset, if its kind is the expected one (30_encoding.md R47, R69). -/
def packToken (k : ArgKind) (t : Token) : Option (List Byte) :=
  match k, t with
  | .register, .register i => some [i]
  | .literal, .literal v => some [literalHi v, literalLo v]
  | _, _ => none

/-- The word of a list of bytes from byte 0 on, the bytes that are missing zero (30_encoding.md R48). -/
def wordOfBytes (bs : List Byte) : InstrWord :=
  packBytes (bs.getD 0 0) (bs.getD 1 0) (bs.getD 2 0) (bs.getD 3 0)

/-- Put a word in front of what the rest assembles to. -/
def emitWord (w : InstrWord) (r : Except AsmError (List InstrWord)) : Except AsmError (List InstrWord) :=
  match r with
  | .ok ws => .ok (w :: ws)
  | .error e => .error e

/-- The assembler (30_encoding.md R69) with the bytes packed so far and the argument kinds still to come; none to come means
between instructions, where a token that is no opcode is passed over. -/
def assembleFrom (bytes : List Byte) (need : List ArgKind) : List Token → Except AsmError (List InstrWord)
  | [] => if need.isEmpty then .ok [] else .error .endOfTokens
  | t :: ts =>
    match need with
    | [] =>
      match t with
      | .opcode op =>
        if (signature op).isEmpty then emitWord (wordOfBytes [op]) (assembleFrom [] [] ts)
        else assembleFrom [op] (signature op) ts
      | .register _ => assembleFrom [] [] ts
      | .literal _ => assembleFrom [] [] ts
    | k :: ks =>
      match packToken k t with
      | none => .error .kindMismatch
      | some more =>
        if ks.isEmpty then emitWord (wordOfBytes (bytes ++ more)) (assembleFrom [] [] ts)
        else assembleFrom (bytes ++ more) ks ts

/-- The assembler on tokens (30_encoding.md R69): the words in source order, at addresses 0 upward. -/
def assembleTokens (ts : List Token) : Except AsmError (List InstrWord) := assembleFrom [] [] ts

/-- From program text to instruction words (30_encoding.md R66 to R69). -/
def assemble (text : List Char) : Except AsmError (List InstrWord) :=
  match lex text with
  | .ok ts => assembleTokens ts
  | .error e => .error e

/-! ### The text of an instruction (30_encoding.md R66) -/

/-- The decimal digit at distance `d` from the digit zero (30_encoding.md R66), meant for `d` up to 9. -/
def digitChar (d : Nat) : Char := Char.ofNat ('0'.toNat + d)

/-- A register operand: `r` and one digit (30_encoding.md R66), meant for bytes 0 to 7. -/
def registerText (b : Byte) : List Char := ['r', digitChar b.toNat]

/-- A literal operand as five decimal digits; leading zeros do not change it (30_encoding.md R67, R68). -/
def literalText (v : Word) : List Char :=
  [digitChar (v.toNat / 10000), digitChar (v.toNat / 1000 % 10), digitChar (v.toNat / 100 % 10),
    digitChar (v.toNat / 10 % 10), digitChar (v.toNat % 10)]

/-- Mnemonic, a space, and two operands with a comma between them. -/
def twoOperandText (mnemonic : Char) (first second : List Char) : List Char :=
  mnemonic :: ' ' :: (first ++ (',' :: second))

/-- The text of an instruction (30_encoding.md R66). -/
def instrText (i : Instr) : List Char :=
  match i with
  | .nop => ['n']
  | .addReg rd rs => twoOperandText 'a' (registerText rd) (registerText rs)
  | .addImm rd imm => twoOperandText 'A' (registerText rd) (literalText imm)
  | .subReg rd rs => twoOperandText 's' (registerText rd) (registerText rs)
  | .subImm rd imm => twoOperandText 'S' (registerText rd) (literalText imm)
  | .xorReg rd rs => twoOperandText '^' (registerText rd) (registerText rs)
  | .orReg rd rs => twoOperandText '|' (registerText rd) (registerText rs)
  | .andReg rd rs => twoOperandText '&' (registerText rd) (registerText rs)
  | .move rd rs => twoOperandText 'm' (registerText rd) (registerText rs)
  | .quit => ['q']
  | .jump imm => 'j' :: ' ' :: literalText imm
  | .jumpIfZero imm => 'j' :: 'z' :: ' ' :: literalText imm

/-- A program text: one instruction a line (30_encoding.md R66). -/
def programText : List Instr → List Char
  | [] => []
  | i :: is => instrText i ++ ('\n' :: programText is)

end Sys2Proof.Machine
end

