-- ==== Sys2Proof/Machine/ClosedForm.lean ====
section
/-! DEFINITION. The single-cycle closed form of 40_cycle.md R85 and 70_reset_and_hazards.md R169: every next value from
the state at the start of the cycle and the bits of the word, in the spec's own integer arithmetic, with no decoder and no
order of writes. The machine does not use it; a statement says that the step computes it. -/

namespace Sys2Proof.Machine

/-- `x[k]` as a number, by slot index (00_scope.md R7). -/
def RegFile.num (r : RegFile) (k : Nat) : Nat :=
  match k with
  | 0 => r.x0.toNat
  | 1 => r.x1.toNat
  | 2 => r.x2.toNat
  | 3 => r.x3.toNat
  | 4 => r.x4.toNat
  | 5 => r.x5.toNat
  | 6 => r.x6.toNat
  | 7 => r.x7.toNat
  | _ => 0

/-- The register file whose slot `k` holds the number `f k` modulo 65536 (10_state.md R13). -/
def RegFile.ofNum (f : Nat → Nat) : RegFile where
  x0 := BitVec.ofNat 16 (f 0)
  x1 := BitVec.ofNat 16 (f 1)
  x2 := BitVec.ofNat 16 (f 2)
  x3 := BitVec.ofNat 16 (f 3)
  x4 := BitVec.ofNat 16 (f 4)
  x5 := BitVec.ofNat 16 (f 5)
  x6 := BitVec.ofNat 16 (f 6)
  x7 := BitVec.ofNat 16 (f 7)

/-- `alu(op, v1, v2)` on the integers (40_cycle.md R81), for the opcodes 1 to 8. -/
def aluNum (op v1 v2 : Nat) : Nat :=
  if op = 1 ∨ op = 2 then (v1 + v2) % 65536
  else if op = 3 ∨ op = 4 then (v1 + 65536 - v2) % 65536
  else if op = 5 then v1 ^^^ v2
  else if op = 6 then v1 ||| v2
  else if op = 7 then v1 &&& v2
  else v2

/-- The next value of slot `k` in a cycle that completes, with opcode `op` and operand bytes `b1`, `b2`, `b3`
(40_cycle.md R85): the flag wins over a result in slot 7, the incremented result over a result in slot 6
(70_reset_and_hazards.md R169). An opcode above 11 is the legacy no-op (60_exceptions.md R147). -/
def nextSlotNum (s : State) (op b1 b2 b3 k : Nat) : Nat :=
  let x := s.regs.num
  let v2 := if op = 2 ∨ op = 4 then b2 * 256 + b3 else x b2
  let r := aluNum op (x b1) v2
  let target := b1 * 256 + b2
  let isAlu := 1 ≤ op ∧ op ≤ 8
  if k = 7 then
    if isAlu then (if r = 0 then 1 else 0)
    else if op = 0 then (match s.config.nopZf with | .preserve => x 7 | .clear => 0)
    else if op = 10 ∨ op = 11 then x 7
    else 0
  else if k = 6 then
    if op = 10 ∨ (op = 11 ∧ x 7 ≠ 0) then target
    else ((if isAlu ∧ b1 = 6 then r else x 6) + 1) % 65536
  else if isAlu ∧ k = b1 then r
  else x k

/-- The next state of a running machine whose instruction pointer is in range and whose fetched word is `w`
(40_cycle.md R85, with the priorities of 60_exceptions.md R148). -/
def closedForm (s : State) (w : InstrWord) : State :=
  let op := w.toNat / 16777216
  let b1 := w.toNat / 65536 % 256
  let b2 := w.toNat / 256 % 256
  let b3 := w.toNat % 256
  if 11 < op ∧ s.config.unknownOpcode = .fault then { s with status := .illegalOpcode }
  else if op = 9 then { s with status := .quit }
  else if 1 ≤ op ∧ op ≤ 8 ∧ (7 < b1 ∨ (op ≠ 2 ∧ op ≠ 4 ∧ 7 < b2)) then { s with status := .badRegister }
  else { s with regs := RegFile.ofNum (nextSlotNum s op b1 b2 b3) }

end Sys2Proof.Machine
end

