-- ==== Sys2Proof/Machine/Ports.lean ====
section
/-! DEFINITION. The block's interface (10_state.md R26, R27): its input and output ports at a rising clock edge, the
boot (70_reset_and_hazards.md R160 to R163), what an ended run reports (60_exceptions.md R142, R145). -/

namespace Sys2Proof.Machine

/-- The input ports sampled at a rising edge of `clk` (10_state.md R26). The port `imem_data` is program memory's answer
and is part of the state here (log 1). -/
structure InPorts where
  rst : Bool
  entry : Word
  deriving DecidableEq, Repr

/-- The code of a status on the `status` port (10_state.md R22). -/
def statusCode : Status → BitVec 3
  | .running => 0
  | .quit => 1
  | .outOfBounds => 2
  | .illegalOpcode => 3
  | .badRegister => 4

/-- The output ports (10_state.md R26): they show the state at all times (R27). -/
structure OutPorts where
  imemAddr : Word
  status : BitVec 3
  regs : RegFile
  deriving DecidableEq, Repr

/-- The value of the output ports in a state: `imem_addr` is always `x[6]` (10_state.md R26). -/
def outPorts (s : State) : OutPorts where
  imemAddr := s.pc
  status := statusCode s.status
  regs := s.regs

/-- A rising edge of `clk` (10_state.md R26): reset when `rst` is 1, from every state, with `entry` sampled at this edge
(70_reset_and_hazards.md R160); otherwise the step (log 16). -/
def clockEdge (p : InPorts) (s : State) : Host.Outcome State Fault Refusal :=
  if p.rst then .next (s.resetTo p.entry) else step s

/-- The host's preparation of a run (70_reset_and_hazards.md R163): program memory loaded from address 0 upward, the
parameters fixed, then reset with the entry offset. -/
def boot (words : List InstrWord) (config : Config) (entry : Word) : State :=
  { State.reset with program := Memory.ofWords words, config := config }.resetTo entry

/-- How the host classes a state (60_exceptions.md R142). -/
inductive Verdict where
  | stillRunning
  | success
  | error
  | diagnostic
  deriving DecidableEq, Repr

/-- Quit is success, OutOfBounds an error exactly under `OOB_IS_ERROR` (60_exceptions.md R142; log 8), and a fault is a
diagnostic (10_state.md R22). -/
def hostVerdict (s : State) : Verdict :=
  match s.status with
  | .running => .stillRunning
  | .quit => .success
  | .outOfBounds => if s.config.oobIsError then .error else .success
  | .illegalOpcode => .diagnostic
  | .badRegister => .diagnostic

/-- The instruction bits of a stopped machine, read back from program memory (10_state.md R24, 60_exceptions.md R145): there
are none at an out-of-range address. -/
def stoppedWord (s : State) : Option InstrWord := if s.inRange then s.fetch else none

end Sys2Proof.Machine
end

