-- ==== Sys2Proof/Safety.lean ====
section
/-! DEFINITION. The terms the statements use: the invariant of a run, what an ALU-class cycle and a control cycle leave
behind, and when every fetch has its word. -/

namespace Sys2Proof.Machine

/-- What holds of every state of a run from a booted reset and is kept by every cycle: program memory in its canonical
form and inside `[0, CAPACITY)` (20_memory.md R30, R37), `CAPACITY` in its range (00_scope.md R5), and the zero-flag
register 0 or 1 (10_state.md R21). -/
abbrev State.Inv (s : State) : Prop :=
  s.program.wf ∧ s.config.wf ∧ (∀ c ∈ s.program.cells, c.1 < s.config.capacity) ∧ (s.zf = 0 ∨ s.zf = 1)

/-- `PROGRAM` is total on `[0, CAPACITY)`, as the spec has the host supply it (20_memory.md R32). -/
def State.ProgramTotal (s : State) : Prop := ∀ a, a < s.config.capacity → (s.program.read a).isSome

/-- What a cycle never changes (10_state.md R29): the program and the parameters. -/
abbrev SameParameters (s t : State) : Prop := t.program = s.program ∧ t.config = s.config

/-- The closed form of an ALU-class cycle with destination `d` and result `r` (40_cycle.md R85, R86, R87), and with it the
frame: slot 7 is the flag of the result, slot 6 the advance (from the result when it is the destination), any other
destination the result, and every other slot, the status, the program and the parameters as before. -/
structure AluEffect (d : Slot) (r : Word) (s t : State) : Prop where
  result : d ≠ .x6 → d ≠ .x7 → t.read d = r
  flag : t.zf = if r = 0 then 1 else 0
  pointer : t.pc = (if d = .x6 then r else s.pc) + 1
  frame : ∀ i, i ≠ d → i ≠ .x6 → i ≠ .x7 → t.read i = s.read i
  status : t.status = s.status
  parameters : SameParameters s t

/-- A cycle that writes at most the instruction pointer: its new value is `p` and nothing else changes. -/
structure PointerEffect (p : Word) (s t : State) : Prop where
  pointer : t.pc = p
  frame : ∀ i, i ≠ .x6 → t.read i = s.read i
  status : t.status = s.status
  parameters : SameParameters s t

/-- The run has ended (40_cycle.md R94). -/
abbrev State.Ended (s : State) : Prop := s.status ≠ .running

/-- A next state, if the outcome is one, with a change made to it. -/
def mapNext (f : State → State) : Host.Outcome State Fault Refusal → Host.Outcome State Fault Refusal
  | .next s => .next (f s)
  | .fault r => .fault r
  | .refused r => .refused r

/-- The state with another `OOB_IS_ERROR` (60_exceptions.md R142). -/
def State.withOob (s : State) (b : Bool) : State := { s with config := { s.config with oobIsError := b } }

/-- The state with another program memory. -/
def State.withProgram (s : State) (m : Memory) : State := { s with program := m }

end Sys2Proof.Machine

namespace Sys2Proof

/-- The destination slot of an instruction that has one (30_encoding.md R56). -/
def Instr.dest (i : Instr) : Option Slot := i.destByte.bind Machine.slotOf

/-- The second operand value `v2` of an ALU-class instruction in a state (40_cycle.md R79): the source slot's content in format RR,
the literal in format RI, and none for an instruction outside the class or a source byte that names no slot. -/
def Instr.secondOperand (i : Instr) (s : Machine.State) : Option Word :=
  match i with
  | .nop => none
  | .addReg _ rs => (Machine.slotOf rs).map s.read
  | .addImm _ imm => some imm
  | .subReg _ rs => (Machine.slotOf rs).map s.read
  | .subImm _ imm => some imm
  | .xorReg _ rs => (Machine.slotOf rs).map s.read
  | .orReg _ rs => (Machine.slotOf rs).map s.read
  | .andReg _ rs => (Machine.slotOf rs).map s.read
  | .move _ rs => (Machine.slotOf rs).map s.read
  | .quit => none
  | .jump _ => none
  | .jumpIfZero _ => none

end Sys2Proof
end

