-- ==== Sys2Proof/Certificates/Slice0/Obligations.lean ====
section
/-! DEFINITION. The statements about the machine. Rules R<n> are those of spec/, D<n> the rows of
spec/92_eei_decisions.md; a statement that rests on a decision or a derivation the spec marks as its own says so. -/

open Sys2Proof Sys2Proof.Machine

/-! ### Decoding and encoding -/

/-- The decoder-only vectors of spec/95_test_vectors.md L2.6 (opcode numbers: decision D1; ignored bytes: D10; faults: D7, D8). -/
def Obligations.DecodeOfWrittenWords : Prop :=
  decode 0x00000000 = .instr .nop ∧
  decode 0x01070700 = .instr (.addReg 7 7) ∧
  decode 0x010707FF = .instr (.addReg 7 7) ∧
  decode 0x0207FFFF = .instr (.addImm 7 65535) ∧
  decode 0x0400012C = .instr (.subImm 0 300) ∧
  decode 0x0A012C00 = .instr (.jump 300) ∧
  decode 0x0B00012C = .instr (.jumpIfZero 1) ∧
  decode 0x09123456 = .instr .quit ∧
  decode 0x0C000000 = .unrecognised 12 ∧
  decode 0xFFFFFFFF = .unrecognised 255 ∧
  decode 0x03000008 = .instr (.subReg 0 0) ∧
  decode 0x03000800 = .badRegister ∧
  decode 0x06100000 = .badRegister

/-- Decode and encode agree on every instruction and every value of every field: the canonical word of an instruction
whose register bytes name slots decodes to it, and of one with a register byte above 7 to the BadRegister fault
(R48, R61, R63; opcode numbers D1, signatures D2, fault D8). -/
def Obligations.DecodeOfEncode : Prop :=
  ∀ i : Instr, decode (encode i) = if i.wellFormed then .instr i else .badRegister

/-- Where each format of R51 to R54 has its fields, in the numbers of the word, for each of the twelve opcodes of R60
(D1, D2) and for every other opcode byte (R62, D7). -/
def Obligations.DecoderReadsWordFields : Prop :=
  ∀ w : InstrWord,
    let op := w.toNat / 16777216
    let b1 := w.toNat / 65536 % 256
    let b2 := w.toNat / 256 % 256
    let rr : (Byte → Byte → Instr) → Decoded := fun mk =>
      if b1 ≤ 7 ∧ b2 ≤ 7 then .instr (mk (BitVec.ofNat 8 b1) (BitVec.ofNat 8 b2)) else .badRegister
    let ri : (Byte → Word → Instr) → Decoded := fun mk =>
      if b1 ≤ 7 then .instr (mk (BitVec.ofNat 8 b1) (BitVec.ofNat 16 w.toNat)) else .badRegister
    let l : (Word → Instr) → Decoded := fun mk => .instr (mk (BitVec.ofNat 16 (w.toNat / 256)))
    (op = 0 → decode w = .instr .nop) ∧
    (op = 1 → decode w = rr .addReg) ∧
    (op = 2 → decode w = ri .addImm) ∧
    (op = 3 → decode w = rr .subReg) ∧
    (op = 4 → decode w = ri .subImm) ∧
    (op = 5 → decode w = rr .xorReg) ∧
    (op = 6 → decode w = rr .orReg) ∧
    (op = 7 → decode w = rr .andReg) ∧
    (op = 8 → decode w = rr .move) ∧
    (op = 9 → decode w = .instr .quit) ∧
    (op = 10 → decode w = l .jump) ∧
    (op = 11 → decode w = l .jumpIfZero) ∧
    (11 < op → decode w = .unrecognised (BitVec.ofNat 8 op))

/-- Two words that agree on the bytes the signature names decode alike (R49, decision D10): byte 0 alone for opcodes 0 and 9
and for those above 11, bytes 0 to 2 for every opcode but 2 and 4. -/
def Obligations.UnusedBytesAreIgnored : Prop :=
  ∀ w w' : InstrWord, byte0 w = byte0 w' →
    ((byte0 w = 0 ∨ byte0 w = 9 ∨ 11 < (byte0 w).toNat) → decode w = decode w') ∧
    (byte1 w = byte1 w' → byte2 w = byte2 w' → byte0 w ≠ 2 → byte0 w ≠ 4 → decode w = decode w')

/-- The other direction: a word that decodes to an instruction decodes to a well-formed one, and that instruction's
canonical word is the word itself with the bytes its format does not use made zero (R48, R49; D10). -/
def Obligations.EncodeOfDecodeIsCanonicalWord : Prop :=
  ∀ (w : InstrWord) (i : Instr), decode w = .instr i →
    i.wellFormed = true ∧
    encode i =
      match i.format with
      | .N => packBytes (byte0 w) 0 0 0
      | .RR => packBytes (byte0 w) (byte1 w) (byte2 w) 0
      | .RI => w
      | .L => packBytes (byte0 w) (byte1 w) (byte2 w) 0

/-- R58, R63, R144, R145 (decision D8: no reduction modulo 8 and nothing written; formats D2; the meaning's own check by
slotOf, log 13): a register byte below 8 is the slot index, and one of 8 or more names no slot and makes the word raise
BadRegister; the byte is not taken modulo 8. In format RR the register bytes are `w[23:16]` and `w[15:8]`, in format RI `w[23:16]`, for
whichever instruction of the format. -/
def Obligations.RegisterByteNamesSlotOrFaults : Prop :=
  (∀ b : Byte, b.toNat < 8 → ∃ d, slotOf b = some d ∧ slotByte d = b) ∧
  (∀ b : Byte, 8 ≤ b.toNat → slotOf b = none) ∧
  (∀ (mk : Byte → Byte → Instr) (w : InstrWord),
    let rd := w.toNat / 65536 % 256
    let rs := w.toNat / 256 % 256
    decodeRR mk w =
      if rd < 8 ∧ rs < 8 then .instr (mk (BitVec.ofNat 8 rd) (BitVec.ofNat 8 rs)) else .badRegister) ∧
  (∀ (mk : Byte → Word → Instr) (w : InstrWord),
    decodeRI mk w = .badRegister ↔ 8 ≤ w.toNat / 65536 % 256) ∧
  (∀ s : State, execDecoded .badRegister s = .next { s with status := .badRegister })

/-- R57: the literal is the 16-bit field of the word as it stands, `w[15:0]` in format RI and `w[23:8]` in format L. -/
def Obligations.LiteralIsTheFieldAsItStands : Prop :=
  ∀ (w : InstrWord) (rd : Byte) (imm : Word),
    (decode w = .instr (.addImm rd imm) ∨ decode w = .instr (.subImm rd imm) → imm.toNat = w.toNat % 65536) ∧
    (decode w = .instr (.jump imm) ∨ decode w = .instr (.jumpIfZero imm) → imm.toNat = w.toNat / 256 % 65536)

/-! ### The cycle -/

/-- A running machine whose instruction pointer is in range and whose word there decodes to an instruction runs exactly that
instruction (R76 to R80, R85: derived by the spec); the step adds nothing around it. -/
def Obligations.StepRunsDecodedInstruction : Prop :=
  ∀ (s : State) (w : InstrWord) (i : Instr),
    s.status = .running → s.pc.toNat < s.config.capacity → s.program.read s.pc.toNat = some w →
    decode w = .instr i → step s = exec i s

/-- The ordered step computes the single-cycle closed form of R85 and R169 on every running state, for every word,
every value of the policies and every slot as operand (derived by the spec; decisions D1 to D8, D10, D11, D17, D20, D24). -/
def Obligations.StepMatchesClosedForm : Prop :=
  ∀ (s : State) (w : InstrWord),
    s.status = .running → s.pc.toNat < s.config.capacity → s.program.read s.pc.toNat = some w →
    step s = .next (closedForm s w)

/-- R76 (decision D9): at or beyond `CAPACITY` the cycle is the out-of-bounds halt, whatever program memory holds, and no
register changes. -/
def Obligations.OutOfBoundsHaltsBeforeFetch : Prop :=
  ∀ s : State, s.status = .running → s.config.capacity ≤ s.pc.toNat →
    step s = .next { s with status := .outOfBounds }

/-- R143, R144, R145, R147, R148 (decisions D7, D8, D17): the word at the instruction pointer has an opcode byte above 11 and
raises IllegalOpcode, or under legacy_nop clears the flag and advances; or it has a bad register byte and raises
BadRegister. A fault changes nothing but the status. -/
def Obligations.UndecodableWordRaisesItsFault : Prop :=
  ∀ (s : State) (w : InstrWord),
    s.status = .running → s.pc.toNat < s.config.capacity → s.program.read s.pc.toNat = some w →
    (11 < (byte0 w).toNat → s.config.unknownOpcode = .fault →
      step s = .next { s with status := .illegalOpcode }) ∧
    (11 < (byte0 w).toNat → s.config.unknownOpcode = .legacyNop →
      ∃ t, step s = .next t ∧ t.zf = 0 ∧ t.pc = s.pc + 1 ∧ (∀ j, j ≠ .x6 → j ≠ .x7 → t.read j = s.read j) ∧
        t.status = .running ∧ SameParameters s t) ∧
    (1 ≤ (byte0 w).toNat → (byte0 w).toNat ≤ 8 →
      (7 < (byte1 w).toNat ∨ (byte0 w ≠ 2 ∧ byte0 w ≠ 4 ∧ 7 < (byte2 w).toNat)) →
      step s = .next { s with status := .badRegister })

/-- R23 (decision D18; log 9): once the status is not Running nothing changes at a clock edge. -/
def Obligations.StoppedMachineIsUnchanged : Prop :=
  ∀ s : State, s.status ≠ .running → step s = .next s

/-- R145, R146: a halt writes no register and sets the status, and a halt and a fault differ only in the code: whatever step
ends a run, the next state is the old one but for its status. Clause 2 is R76, the decision D9; in clause 3 the state a fault
leaves is D7 and D8, a stopped state's step is log 9 (D18), and halts and faults as next states are log 10. -/
def Obligations.HaltsAndFaultsChangeOnlyStatus : Prop :=
  (∀ s : State, exec .quit s = .next { s with status := .quit }) ∧
  (∀ s : State, s.status = .running → s.config.capacity ≤ s.pc.toNat →
    step s = .next { s with status := .outOfBounds }) ∧
  (∀ s t : State, step s = .next t → t.status ≠ .running → t = { s with status := t.status })

/-- A run with every word of `[0, CAPACITY)` supplied never stops the model: every state has a next state, which again has
every word (R31, R32, R85). That a word nobody supplied is the one stop is log 3; that a stopped state, for which R85 has no
step, has itself as next state is the model's choice of log 9 (R23, D18). -/
def Obligations.TotalProgramAlwaysSteps : Prop :=
  ∀ s : State, s.ProgramTotal → ∃ t, step s = .next t ∧ t.ProgramTotal

/-- No instruction, whatever its operands and whatever the state, stops the model (R92, R95, R105, R125: every pair of
operands has a defined result). -/
def Obligations.EveryInstructionAnswersNext : Prop :=
  ∀ (i : Instr) (s : State), ∃ t, exec i s = .next t

/-- What a step does rests on the word at the instruction pointer and on no other word of program memory (R31, R91, R94:
"it says nothing of the words of PROGRAM that were never fetched"). -/
def Obligations.StepDependsOnlyOnFetchedWord : Prop :=
  ∀ (s : State) (m : Memory), m.read s.pc.toNat = s.program.read s.pc.toNat →
    step (s.withProgram m) = mapNext (fun t => t.withProgram m) (step s)

/-! ### Invariants -/

/-- Every step keeps the invariant: program memory canonical and inside `[0, CAPACITY)`, `CAPACITY` in its range, and the
zero-flag register 0 or 1 (R21, R30, R37; R21 is derived by the spec, the canonical form is the model's, log 2). -/
def Obligations.StepKeepsInvariant : Prop :=
  ∀ s t : State, s.Inv → step s = .next t → t.Inv

/-- The reset state meets the invariant and holds zero in every slot with status Running. The entry offset 0, the capacity
65536 and the empty program are the model's choices (logs 4, 5, 12). -/
def Obligations.ResetStateMeetsInvariant : Prop :=
  State.reset.Inv ∧ (∀ i, State.reset.read i = 0) ∧ State.reset.status = .running

/-- R163: a booted machine holds the words of the program at addresses 0 upward and none beyond them, the parameters and the
entry offset it was given, and it meets the invariant when the program fits. The functions boot and Memory.ofWords are the
model's own (log 12), and that nothing is read beyond the words is the model's choice of log 3: the spec has the program total
and leaves those words open (R32, D14). The invariant's canonical form is log 2. -/
def Obligations.BootLoadsWordsFromAddressZero : Prop :=
  ∀ (ws : List InstrWord) (c : Config) (entry : Word), c.wf → ws.length ≤ c.capacity →
    (boot ws c entry).Inv ∧ (∀ a, (boot ws c entry).program.read a = ws[a]?) ∧
    (boot ws c entry).config = c ∧ (boot ws c entry).pc = entry ∧ (boot ws c entry).status = .running

/-- R29: no cycle changes the program or the parameters, and nothing but them is carried from one run to the next: two
states with the same program and parameters are the same after a reset with the same entry offset. -/
def Obligations.NoCycleChangesProgramOrParameters : Prop :=
  (∀ s t : State, step s = .next t → SameParameters s t) ∧
  (∀ (i : Instr) (s t : State), exec i s = .next t → SameParameters s t) ∧
  (∀ (s s' : State) (entry : Word), SameParameters s s' →
    clockEdge { rst := true, entry := entry } s = clockEdge { rst := true, entry := entry } s')

/-! ### Reset, ports, verdict -/

/-- R28, R160: at a reset edge, from any state, every slot becomes zero but the instruction pointer, which takes `ENTRY`, and
the status Running; `ENTRY` is not checked, and one at or beyond `CAPACITY` gives the out-of-bounds halt in the first cycle.
The unchecked `ENTRY` is the decision D13, the halt D9, the reset edge with its sampled port D15; that reset is an input of
clockEdge is log 16. -/
def Obligations.ResetClearsEverySlotButPointer : Prop :=
  ∀ (s : State) (entry : Word), ∃ t,
    clockEdge { rst := true, entry := entry } s = .next t ∧ t.pc = entry ∧
    (∀ i, i ≠ .x6 → t.read i = 0) ∧ t.status = .running ∧ SameParameters s t ∧
    (s.config.capacity ≤ entry.toNat →
      clockEdge { rst := false, entry := entry } t = .next { t with status := .outOfBounds })

/-- R22, R26, R27 (decisions D15, D16, D19): the output ports show `x[6]`, every slot and the code of the status, five different
codes; with `rst = 0` an edge is the step and the `entry` port is not looked at. -/
def Obligations.PortsShowTheState : Prop :=
  (∀ s : State, (outPorts s).imemAddr = s.read .x6 ∧ (∀ i, (outPorts s).regs.read i = s.read i) ∧
    (outPorts s).status.toNat =
      match s.status with
      | .running => 0
      | .quit => 1
      | .outOfBounds => 2
      | .illegalOpcode => 3
      | .badRegister => 4) ∧
  (∀ (s : State) (entry : Word), clockEdge { rst := false, entry := entry } s = step s)

/-- R142 (decision D9): `OOB_IS_ERROR` decides the host's verdict on the out-of-bounds halt and nothing of the machine: the
step commutes with setting it. -/
def Obligations.VerdictPolicyDoesNotTouchTheMachine : Prop :=
  (∀ (s : State) (b : Bool), step (s.withOob b) = mapNext (fun t => t.withOob b) (step s)) ∧
  (∀ s : State, s.status = .quit → hostVerdict s = .success) ∧
  (∀ s : State, s.status = .outOfBounds → s.config.oobIsError = true → hostVerdict s = .error) ∧
  (∀ s : State, s.status = .outOfBounds → s.config.oobIsError = false → hostVerdict s = .success)

/-- A word placed where the next cycle fetches is the word the next step runs, on the registers as they were (log 12: the
model's own operation). -/
def Obligations.PlacedWordIsRunNext : Prop :=
  ∀ (s : State) (nbits w : Nat) (i : Instr), decode (tableWord nbits w) = .instr i →
    step (s.withFetchWord nbits w) = exec i (s.withFetchWord nbits w) ∧
    (s.withFetchWord nbits w).regs = s.regs

/-! ### Arithmetic -/

/-- `a rd,rs` (R96; decisions D3, D4, D8, D20): the sum modulo 65536 into the first operand, with its whole closed form and frame,
for every pair of slots; BadRegister with nothing else changed for a byte above 7; and its canonical word (D1). -/
def Obligations.AddRegSumsIntoFirstOperand : Prop :=
  (∀ (d r : Slot) (s : State), ∃ (t : State) (v : Word),
    exec (.addReg (slotByte d) (slotByte r)) s = .next t ∧
    v.toNat = ((s.read d).toNat + (s.read r).toNat) % 65536 ∧ AluEffect d v s t) ∧
  (∀ (rd rs : Byte) (s : State), 7 < rd.toNat ∨ 7 < rs.toNat →
    exec (.addReg rd rs) s = .next { s with status := .badRegister }) ∧
  (∀ rd rs : Byte, (encode (.addReg rd rs)).toNat = 0x01000000 + rd.toNat * 65536 + rs.toNat * 256)

/-- `A rd,imm` (R97; decisions D4, D8, D20): the sum with the literal as it stands. -/
def Obligations.AddImmSumsLiteralIntoOperand : Prop :=
  (∀ (d : Slot) (imm : Word) (s : State), ∃ (t : State) (v : Word),
    exec (.addImm (slotByte d) imm) s = .next t ∧
    v.toNat = ((s.read d).toNat + imm.toNat) % 65536 ∧ AluEffect d v s t) ∧
  (∀ (rd : Byte) (imm : Word) (s : State), 7 < rd.toNat →
    exec (.addImm rd imm) s = .next { s with status := .badRegister }) ∧
  (∀ (rd : Byte) (imm : Word), (encode (.addImm rd imm)).toNat = 0x02000000 + rd.toNat * 65536 + imm.toNat)

/-- `s rd,rs` (R98; decisions D3, D4, D8, D20): the difference `x[rd] - x[rs]` modulo 65536, and the flag is 1 exactly when the
operands are equal. -/
def Obligations.SubRegSubtractsSecondFromFirst : Prop :=
  (∀ (d r : Slot) (s : State), ∃ (t : State) (v : Word),
    exec (.subReg (slotByte d) (slotByte r)) s = .next t ∧
    v.toNat = ((s.read d).toNat + 65536 - (s.read r).toNat) % 65536 ∧ AluEffect d v s t ∧
    (t.zf = 1 ↔ s.read d = s.read r)) ∧
  (∀ (rd rs : Byte) (s : State), 7 < rd.toNat ∨ 7 < rs.toNat →
    exec (.subReg rd rs) s = .next { s with status := .badRegister }) ∧
  (∀ rd rs : Byte, (encode (.subReg rd rs)).toNat = 0x03000000 + rd.toNat * 65536 + rs.toNat * 256)

/-- `S rd,imm` (R99; decisions D3, D4, D8, D20): the difference `x[rd] - imm` modulo 65536, and the flag is 1 exactly when they are
equal. -/
def Obligations.SubImmSubtractsLiteral : Prop :=
  (∀ (d : Slot) (imm : Word) (s : State), ∃ (t : State) (v : Word),
    exec (.subImm (slotByte d) imm) s = .next t ∧
    v.toNat = ((s.read d).toNat + 65536 - imm.toNat) % 65536 ∧ AluEffect d v s t ∧
    (t.zf = 1 ↔ s.read d = imm)) ∧
  (∀ (rd : Byte) (imm : Word) (s : State), 7 < rd.toNat →
    exec (.subImm rd imm) s = .next { s with status := .badRegister }) ∧
  (∀ (rd : Byte) (imm : Word), (encode (.subImm rd imm)).toNat = 0x04000000 + rd.toNat * 65536 + imm.toNat)

/-! ### Bitwise -/

/-- `^ rd,rs` (R106; decisions D3 for the destination, D8 for the state a fault leaves, D20 for destinations 6 and 7, D1 for the
canonical word; log 11): bit by bit exclusive or, flag 1 exactly when the operands are equal. -/
def Obligations.XorCombinesBits : Prop :=
  (∀ (d r : Slot) (s : State), ∃ (t : State) (v : Word),
    exec (.xorReg (slotByte d) (slotByte r)) s = .next t ∧
    (∀ k, k < 16 → v.getLsbD k = ((s.read d).getLsbD k != (s.read r).getLsbD k)) ∧ AluEffect d v s t ∧
    (t.zf = 1 ↔ s.read d = s.read r)) ∧
  (∀ (rd rs : Byte) (s : State), 7 < rd.toNat ∨ 7 < rs.toNat →
    exec (.xorReg rd rs) s = .next { s with status := .badRegister }) ∧
  (∀ rd rs : Byte, (encode (.xorReg rd rs)).toNat = 0x05000000 + rd.toNat * 65536 + rs.toNat * 256)

/-- `| rd,rs` (R107; decisions D3 for the destination, D8 for the state a fault leaves, D20 for destinations 6 and 7, D1 for the
canonical word; log 11): bit by bit inclusive or, flag 1 exactly when both operands are 0. -/
def Obligations.OrCombinesBits : Prop :=
  (∀ (d r : Slot) (s : State), ∃ (t : State) (v : Word),
    exec (.orReg (slotByte d) (slotByte r)) s = .next t ∧
    (∀ k, k < 16 → v.getLsbD k = ((s.read d).getLsbD k || (s.read r).getLsbD k)) ∧ AluEffect d v s t ∧
    (t.zf = 1 ↔ s.read d = 0 ∧ s.read r = 0)) ∧
  (∀ (rd rs : Byte) (s : State), 7 < rd.toNat ∨ 7 < rs.toNat →
    exec (.orReg rd rs) s = .next { s with status := .badRegister }) ∧
  (∀ rd rs : Byte, (encode (.orReg rd rs)).toNat = 0x06000000 + rd.toNat * 65536 + rs.toNat * 256)

/-- `& rd,rs` (R108; decisions D3 for the destination, D8 for the state a fault leaves, D20 for destinations 6 and 7, D1 for the
canonical word; log 11): bit by bit and, flag 1 exactly when the operands have no 1 bit in common. -/
def Obligations.AndCombinesBits : Prop :=
  (∀ (d r : Slot) (s : State), ∃ (t : State) (v : Word),
    exec (.andReg (slotByte d) (slotByte r)) s = .next t ∧
    (∀ k, k < 16 → v.getLsbD k = ((s.read d).getLsbD k && (s.read r).getLsbD k)) ∧ AluEffect d v s t ∧
    (t.zf = 1 ↔ ∀ k, k < 16 → ¬((s.read d).getLsbD k = true ∧ (s.read r).getLsbD k = true))) ∧
  (∀ (rd rs : Byte) (s : State), 7 < rd.toNat ∨ 7 < rs.toNat →
    exec (.andReg rd rs) s = .next { s with status := .badRegister }) ∧
  (∀ rd rs : Byte, (encode (.andReg rd rs)).toNat = 0x07000000 + rd.toNat * 65536 + rs.toNat * 256)

/-! ### Move and nop -/

/-- `m rd,rs` (R116; decisions D3, D8, D20): the second operand's value into the first, flag 1 exactly when it is 0. -/
def Obligations.MoveCopiesSecondIntoFirst : Prop :=
  (∀ (d r : Slot) (s : State), ∃ t : State,
    exec (.move (slotByte d) (slotByte r)) s = .next t ∧ AluEffect d (s.read r) s t ∧
    (t.zf = 1 ↔ s.read r = 0)) ∧
  (∀ (rd rs : Byte) (s : State), 7 < rd.toNat ∨ 7 < rs.toNat →
    exec (.move rd rs) s = .next { s with status := .badRegister }) ∧
  (∀ rd rs : Byte, (encode (.move rd rs)).toNat = 0x08000000 + rd.toNat * 65536 + rs.toNat * 256)

/-- `n` (R117; decision D6): the instruction pointer advances; the zero-flag register is kept under NOP_ZF = preserve and 0
under clear; nothing else changes; and every word with byte 0 zero is a nop (D10). -/
def Obligations.NopAdvancesAndKeepsOrClearsFlag : Prop :=
  (∀ s : State, s.config.nopZf = .preserve → ∃ t, exec .nop s = .next t ∧ PointerEffect (s.pc + 1) s t) ∧
  (∀ s : State, s.config.nopZf = .clear → ∃ t, exec .nop s = .next t ∧ t.zf = 0 ∧ t.pc = s.pc + 1 ∧
    (∀ i, i ≠ .x6 → i ≠ .x7 → t.read i = s.read i) ∧ t.status = s.status ∧ SameParameters s t) ∧
  (∀ w : InstrWord, byte0 w = 0 → decode w = .instr .nop)

/-- Slots 6 and 7 as sources (R88, R89, derived by the spec): a move from slot 6 copies the address of the move itself, and a
move from slot 7 copies the flag and leaves the flag inverted, for every destination but 6 and 7. -/
def Obligations.PointerAndFlagAsSources : Prop :=
  ∀ (d : Slot) (s : State), d ≠ .x6 → d ≠ .x7 →
    (∃ t, exec (.move (slotByte d) (slotByte .x6)) s = .next t ∧ t.read d = s.pc ∧ t.pc = s.pc + 1) ∧
    (s.zf = 0 ∨ s.zf = 1 →
      ∃ t, exec (.move (slotByte d) (slotByte .x7)) s = .next t ∧ t.read d = s.zf ∧ t.zf = 1 - s.zf)

/-! ### Control -/

/-- `q` (R126): every word with byte 0 equal to 9 is a quit (opcode number D1, ignored bytes D10; log 11); the run ends with
every register as it was, the instruction pointer at the quit itself, and no further cycle takes place: that the step of the
stopped machine answers the same state is D18 and the model's choice of log 9. -/
def Obligations.QuitEndsTheRunInPlace : Prop :=
  (∀ s : State, exec .quit s = .next { s with status := .quit }) ∧
  (∀ s : State, step { s with status := .quit } = .next { s with status := .quit }) ∧
  (∀ w : InstrWord, byte0 w = 9 → decode w = .instr .quit) ∧
  encode .quit = 0x09000000

/-- `j imm` (R127; decision D25 for unchecked targets): slot 6 becomes the target, whatever it is, and nothing else changes; a
target at or beyond `CAPACITY` ends the run in the next cycle. -/
def Obligations.JumpStoresTarget : Prop :=
  ∀ (imm : Word) (s : State),
    (∃ t, exec (.jump imm) s = .next t ∧ PointerEffect imm s t ∧
      (s.status = .running → s.config.capacity ≤ imm.toNat → step t = .next { t with status := .outOfBounds })) ∧
    (encode (.jump imm)).toNat = 0x0A000000 + imm.toNat * 256

/-- `jz imm` (R128; decisions D11, D25): the target when slot 7 is not 0, the next address when it is, and nothing else changes. -/
def Obligations.JumpIfZeroTestsFlagRegister : Prop :=
  ∀ (imm : Word) (s : State),
    (s.zf ≠ 0 → ∃ t, exec (.jumpIfZero imm) s = .next t ∧ PointerEffect imm s t) ∧
    (s.zf = 0 → ∃ t, exec (.jumpIfZero imm) s = .next t ∧ PointerEffect (s.pc + 1) s t) ∧
    (encode (.jumpIfZero imm)).toNat = 0x0B000000 + imm.toNat * 256

/-- R125: quit and the two jumps write no general register and not the zero-flag register, none can raise BadRegister, and
none performs the normal advance except a jump-if-zero-flag that is not taken. Taken means slot 7 not 0, the decision D11
(R128); unchecked targets are D25, the opcode numbers D1 (log 11). -/
def Obligations.ControlWritesNoGeneralRegister : Prop :=
  (∀ (i : Instr) (s : State), i = .quit ∨ (∃ imm, i = .jump imm) ∨ (∃ imm, i = .jumpIfZero imm) →
    ∃ t, exec i s = .next t ∧ (∀ j, j ≠ .x6 → t.read j = s.read j) ∧
      (t.pc = s.pc ∧ i = .quit ∨ i = .jump t.pc ∨ i = .jumpIfZero t.pc ∧ s.zf ≠ 0 ∨
        (∃ imm, i = .jumpIfZero imm) ∧ s.zf = 0 ∧ t.pc = s.pc + 1)) ∧
  (∀ (w : InstrWord) (imm : Word),
    byte0 w = Instr.quit.opcode ∨ byte0 w = (Instr.jump imm).opcode ∨ byte0 w = (Instr.jumpIfZero imm).opcode →
    decode w ≠ .badRegister)

/-- R129: a jump's target is the word's own field whatever the jump's address, and the only other way to change the flow of
control is an ALU-class instruction whose destination is slot 6: any other instruction that leaves the machine running
goes on at the next address. A jump-if-zero-flag is taken when slot 7 is not 0, the decision D11 (R128); the redirection by a
write to slot 6 is D20 (R86); log 11. -/
def Obligations.OnlyJumpsAndSlotSixRedirect : Prop :=
  (∀ (w : InstrWord) (imm : Word) (s : State), decode w = .instr (.jump imm) →
    ∃ t : State, exec (.jump imm) s = .next t ∧ t.pc.toNat = w.toNat / 256 % 65536) ∧
  (∀ (w : InstrWord) (imm : Word) (s : State), decode w = .instr (.jumpIfZero imm) → s.zf ≠ 0 →
    ∃ t : State, exec (.jumpIfZero imm) s = .next t ∧ t.pc.toNat = w.toNat / 256 % 65536) ∧
  (∀ (i : Instr) (s t : State), s.status = .running → exec i s = .next t → t.status = .running →
    t.pc ≠ s.pc + 1 →
    (∃ imm, i = .jump imm) ∨ (∃ imm, i = .jumpIfZero imm ∧ s.zf ≠ 0) ∨ (i.isAlu = true ∧ i.dest = some .x6))

/-! ### Frames over all instructions -/

/-- R14, R15 (derived by the spec): an instruction changes no slot but its destination, slot 6, and slot 7, and slot 7 only if it
is of the ALU class or a nop under NOP_ZF = clear; the program and the parameters never. -/
def Obligations.SlotsOutsideWriteTableAreKept : Prop :=
  ∀ (i : Instr) (s t : State), exec i s = .next t →
    SameParameters s t ∧
    (∀ j, j ≠ .x6 → j ≠ .x7 → i.dest ≠ some j → t.read j = s.read j) ∧
    (i.isAlu = false → (i = .nop → s.config.nopZf = .preserve) → t.zf = s.zf)

/-- R79 to R83 in order: every well-formed ALU-class instruction writes its own result, `alu(op, v1, v2)` of R81 with its opcode
and its two operand values, to its destination; then slot 7 becomes 1 if the destination slot, read after that write and before
the advance, is zero, and 0 otherwise; then slot 6 advances. So for destination slot 7 the flag is that of the result it
overwrites (R87), and for slot 6 that of the result before the advance (R86). Quit and both jumps leave slot 7. Decisions D1
(opcode numbers), D3 (operand roles), D4 and D5 (wrapping result and advance), D20 (destinations 6 and 7), D24 (operands read
first); log 11. -/
def Obligations.ZeroFlagFollowsStoredDestination : Prop :=
  (∀ (i : Instr) (s : State), i.isAlu = true → i.wellFormed = true →
    ∃ (d : Slot) (v2 r : Word) (t : State), i.dest = some d ∧ i.secondOperand s = some v2 ∧
      r.toNat = aluNum i.opcode.toNat (s.read d).toNat v2.toNat ∧ exec i s = .next t ∧
      t.zf = (if (s.write d r).read d = 0 then 1 else 0) ∧
      t = ((s.write d r).write .x7 t.zf).advance) ∧
  (∀ (i : Instr) (s : State), i = .quit ∨ (∃ imm, i = .jump imm) ∨ (∃ imm, i = .jumpIfZero imm) →
    ∃ t, exec i s = .next t ∧ t.zf = s.zf)

/-- R20 (its table of writers; policies D6, D7): the zero-flag register changes in a step only if the word is of the ALU class,
or a nop under NOP_ZF = clear, or unrecognised under legacy_nop. -/
def Obligations.ZeroFlagWriters : Prop :=
  ∀ s t : State, step s = .next t → t.zf ≠ s.zf →
    ∃ w, s.program.read s.pc.toNat = some w ∧
      ((∃ i, decode w = .instr i ∧ (i.isAlu = true ∨ (i = .nop ∧ s.config.nopZf = .clear))) ∨
        ((∃ op, decode w = .unrecognised op) ∧ s.config.unknownOpcode = .legacyNop))

/-! ### The assembler (software outside the block) -/

/-- R67, R68 (derived by the spec from the source's sentence): a run of decimal digits of any length is one literal token, its value
modulo 65536. -/
def Obligations.DigitRunLexesModulo65536 : Prop :=
  ∀ (d : Nat) (ds : List Nat), (∀ x ∈ d :: ds, x ≤ 9) →
    lex ((d :: ds).map digitChar) =
      .ok [.literal (BitVec.ofNat 16 ((d :: ds).foldl (fun v x => v * 10 + x) 0))]

/-- R66, R69: the text that the model prints for a list of well-formed instructions assembles to their canonical words in source
order (opcode numbers D1, signatures D2). R66 allows many texts for one instruction; the printed one, with one instruction a
line, one space, one comma and literals of five decimal digits, is the model's choice of log 17. -/
def Obligations.AssembleOfProgramText : Prop :=
  ∀ is : List Instr, (∀ i ∈ is, i.wellFormed = true) → assemble (programText is) = .ok (is.map encode)
end

