-- ==== Sys2Proof/Laws/Assembler.lean ====
section
/-! SUPPORT. What the lexer does with the characters of a number. -/

namespace Sys2Proof.Machine

theorem digitValue_digitChar {d : Nat} (h : d ≤ 9) : digitValue (digitChar d) = some d := by
  interval_cases d <;> decide

theorem mnemonicCode_digitChar {d : Nat} (h : d ≤ 9) : mnemonicCode (digitChar d) = none := by
  interval_cases d <;> decide

theorem charClass_digitChar {d : Nat} (h : d ≤ 9) : charClass (digitChar d) = .digit := by
  simp [charClass, digitValue_digitChar h, mnemonicCode_digitChar h]

/-- One more digit of a literal (30_encoding.md R67). -/
theorem lexFrom_number_digit (v : Nat) {d : Nat} (h : d ≤ 9) (cs : List Char) :
    lexFrom (.number v) (digitChar d :: cs) = lexFrom (.number ((v * 10 + d) % 65536)) cs := by
  simp only [lexFrom, lexChar, digitValue_digitChar h]
  cases lexFrom (.number ((v * 10 + d) % 65536)) cs <;> rfl

/-- The first digit of a literal (30_encoding.md R67). -/
theorem lexFrom_start_digit {d : Nat} (h : d ≤ 9) (cs : List Char) :
    lexFrom .start (digitChar d :: cs) = lexFrom (.number d) cs := by
  have q : lexChar .start (digitChar d) = .ok ([], .number d) := by
    simp [lexChar, lexStart, charClass_digitChar h, digitValue_digitChar h]
  simp only [lexFrom, q]
  cases lexFrom (.number d) cs <;> rfl

end Sys2Proof.Machine
end

