-- ==== Sys2Proof/Laws/State.lean ====
section
/-! SUPPORT. One lemma per field and update of the state, and what a slot reads after a write. -/

namespace Sys2Proof.Machine

/-! ### Register file -/

@[simp] theorem RegFile.read_write_same (r : RegFile) (i : Slot) (v : Word) : (r.write i v).read i = v := by
  cases i <;> rfl

theorem RegFile.read_write_of_ne (r : RegFile) {i j : Slot} (v : Word) (h : j ≠ i) :
    (r.write i v).read j = r.read j := by
  cases i <;> cases j <;> first | rfl | exact absurd rfl h

theorem RegFile.ext_read {r r' : RegFile} (h : ∀ i, r.read i = r'.read i) : r = r' := by
  have h0 := h .x0; have h1 := h .x1; have h2 := h .x2; have h3 := h .x3
  have h4 := h .x4; have h5 := h .x5; have h6 := h .x6; have h7 := h .x7
  simp only [RegFile.read] at h0 h1 h2 h3 h4 h5 h6 h7
  cases r; cases r'
  simp_all

/-! ### A write of one slot -/

@[simp] theorem State.read_write_same (s : State) (i : Slot) (v : Word) : (s.write i v).read i = v :=
  RegFile.read_write_same s.regs i v

@[simp] theorem State.read_write_of_ne (s : State) {i j : Slot} (v : Word) (h : j ≠ i) :
    (s.write i v).read j = s.read j :=
  RegFile.read_write_of_ne s.regs v h

theorem State.read_write (s : State) (i j : Slot) (v : Word) :
    (s.write i v).read j = if j = i then v else s.read j := by
  by_cases h : j = i
  · subst h; simp
  · simp [h]

@[simp] theorem State.write_status (s : State) (i : Slot) (v : Word) : (s.write i v).status = s.status := rfl
@[simp] theorem State.write_program (s : State) (i : Slot) (v : Word) : (s.write i v).program = s.program := rfl
@[simp] theorem State.write_config (s : State) (i : Slot) (v : Word) : (s.write i v).config = s.config := rfl

/-! ### The instruction pointer -/

@[simp] theorem State.advance_pc (s : State) : s.advance.pc = s.pc + 1 := State.read_write_same s .x6 _
@[simp] theorem State.advance_read_of_ne (s : State) {i : Slot} (h : i ≠ .x6) : s.advance.read i = s.read i :=
  State.read_write_of_ne s _ h
@[simp] theorem State.advance_status (s : State) : s.advance.status = s.status := rfl
@[simp] theorem State.advance_program (s : State) : s.advance.program = s.program := rfl
@[simp] theorem State.advance_config (s : State) : s.advance.config = s.config := rfl

@[simp] theorem State.jumpTo_pc (s : State) (t : Word) : (s.jumpTo t).pc = t := State.read_write_same s .x6 _
@[simp] theorem State.jumpTo_read_of_ne (s : State) (t : Word) {i : Slot} (h : i ≠ .x6) :
    (s.jumpTo t).read i = s.read i :=
  State.read_write_of_ne s _ h
@[simp] theorem State.jumpTo_status (s : State) (t : Word) : (s.jumpTo t).status = s.status := rfl
@[simp] theorem State.jumpTo_program (s : State) (t : Word) : (s.jumpTo t).program = s.program := rfl
@[simp] theorem State.jumpTo_config (s : State) (t : Word) : (s.jumpTo t).config = s.config := rfl

/-! ### The flag -/

@[simp] theorem State.updateZf_read_of_ne (s : State) (d : Slot) {i : Slot} (h : i ≠ .x7) :
    (s.updateZf d).read i = s.read i :=
  State.read_write_of_ne s _ h
@[simp] theorem State.updateZf_zf (s : State) (d : Slot) : (s.updateZf d).zf = zeroFlag (s.read d) :=
  State.read_write_same s .x7 _
@[simp] theorem State.updateZf_status (s : State) (d : Slot) : (s.updateZf d).status = s.status := rfl
@[simp] theorem State.updateZf_program (s : State) (d : Slot) : (s.updateZf d).program = s.program := rfl
@[simp] theorem State.updateZf_config (s : State) (d : Slot) : (s.updateZf d).config = s.config := rfl

@[simp] theorem State.clearZf_zf (s : State) : s.clearZf.zf = 0 := State.read_write_same s .x7 _
@[simp] theorem State.clearZf_read_of_ne (s : State) {i : Slot} (h : i ≠ .x7) : s.clearZf.read i = s.read i :=
  State.read_write_of_ne s _ h
@[simp] theorem State.clearZf_status (s : State) : s.clearZf.status = s.status := rfl
@[simp] theorem State.clearZf_program (s : State) : s.clearZf.program = s.program := rfl
@[simp] theorem State.clearZf_config (s : State) : s.clearZf.config = s.config := rfl

theorem zeroFlag_zero_or_one (v : Word) : zeroFlag v = 0 ∨ zeroFlag v = 1 := by
  unfold zeroFlag; split
  · exact .inr rfl
  · exact .inl rfl

/-! ### The end of a run, reset, and loading -/

@[simp] theorem State.stop_regs (s : State) (e : Event) : (s.stop e).regs = s.regs := rfl
@[simp] theorem State.stop_read (s : State) (e : Event) (i : Slot) : (s.stop e).read i = s.read i := rfl
@[simp] theorem State.stop_zf (s : State) (e : Event) : (s.stop e).zf = s.zf := rfl
@[simp] theorem State.stop_pc (s : State) (e : Event) : (s.stop e).pc = s.pc := rfl
@[simp] theorem State.stop_status (s : State) (e : Event) : (s.stop e).status = e.status := rfl
@[simp] theorem State.stop_program (s : State) (e : Event) : (s.stop e).program = s.program := rfl
@[simp] theorem State.stop_config (s : State) (e : Event) : (s.stop e).config = s.config := rfl

theorem Event.status_ne_running (e : Event) : e.status ≠ .running := by
  cases e <;> exact nofun

@[simp] theorem State.resetTo_pc (s : State) (e : Word) : (s.resetTo e).pc = e := rfl
@[simp] theorem State.resetTo_status (s : State) (e : Word) : (s.resetTo e).status = .running := rfl
@[simp] theorem State.resetTo_program (s : State) (e : Word) : (s.resetTo e).program = s.program := rfl
@[simp] theorem State.resetTo_config (s : State) (e : Word) : (s.resetTo e).config = s.config := rfl
theorem State.resetTo_read_of_ne (s : State) (e : Word) {i : Slot} (h : i ≠ .x6) : (s.resetTo e).read i = 0 := by
  cases i <;> first | rfl | exact absurd rfl h

/-- The state after reset is the reset edge with `entry = 0` (logs 5, 16). -/
theorem State.reset_eq_resetTo : State.reset = State.reset.resetTo 0 := rfl

@[simp] theorem State.placeFetchWord_regs (s : State) (w : InstrWord) : (s.placeFetchWord w).regs = s.regs := rfl
@[simp] theorem State.placeFetchWord_read (s : State) (w : InstrWord) (i : Slot) :
    (s.placeFetchWord w).read i = s.read i := rfl
@[simp] theorem State.placeFetchWord_pc (s : State) (w : InstrWord) : (s.placeFetchWord w).pc = s.pc := rfl
@[simp] theorem State.placeFetchWord_status (s : State) (w : InstrWord) :
    (s.placeFetchWord w).status = .running := rfl
@[simp] theorem State.placeFetchWord_program (s : State) (w : InstrWord) :
    (s.placeFetchWord w).program = s.program.write s.pc.toNat w := rfl
@[simp] theorem State.placeFetchWord_capacity (s : State) (w : InstrWord) :
    (s.placeFetchWord w).config.capacity = max s.config.capacity (s.pc.toNat + 1) := rfl

end Sys2Proof.Machine
end

