-- ==== Sys2Proof/Laws/ClosedForm.lean ====
section
/-! SUPPORT. The closed form's numbered registers and the named slots are the same registers. -/

namespace Sys2Proof.Machine

theorem slotByte_toNat_inj {a b : Slot} : (slotByte a).toNat = (slotByte b).toNat → a = b := by
  cases a <;> cases b <;> decide

theorem RegFile.num_slotByte (r : RegFile) (d : Slot) : r.num (slotByte d).toNat = (r.read d).toNat := by
  cases d <;> rfl

theorem RegFile.read_ofNum (f : Nat → Nat) (d : Slot) :
    (RegFile.ofNum f).read d = BitVec.ofNat 16 (f (slotByte d).toNat) := by
  cases d <;> rfl

/-- The difference of 40_cycle.md R81 on the integers. -/
theorem alu_sub_toNat (v1 v2 : Word) : (alu .sub v1 v2).toNat = (v1.toNat + 65536 - v2.toNat) % 65536 := by
  rw [alu, BitVec.toNat_sub]
  omega

/-- Two states are equal when every slot, the status, the program and the parameters are. -/
theorem State.ext_read {s t : State} (h : ∀ d, s.read d = t.read d) (hs : s.status = t.status)
    (hp : s.program = t.program) (hc : s.config = t.config) : s = t := by
  have hr : s.regs = t.regs := RegFile.ext_read h
  cases s; cases t; simp_all

end Sys2Proof.Machine
end

