-- ==== Sys2Proof/Laws/Memory.lean ====
section
/-! SUPPORT. Program memory: read after write, and every operation keeps the canonical form. -/

namespace Sys2Proof.Machine

/-! ### Reading -/

theorem lookupWord_insertWord (cells : List ProgramCell) (a b : Nat) (w : InstrWord)
    (h : cells.Pairwise fun c d => c.1 < d.1) :
    lookupWord (insertWord cells a w) b = if b = a then some w else lookupWord cells b := by
  induction cells with
  | nil => simp [insertWord, lookupWord, eq_comm]
  | cons cell rest ih =>
    obtain ⟨k, v⟩ := cell
    have hk := (List.pairwise_cons.1 h).1
    have ih := ih (List.pairwise_cons.1 h).2
    by_cases hlt : a < k
    · simp only [insertWord, hlt, if_true, lookupWord, eq_comm (a := a)]
    · by_cases heq : a = k
      · subst heq
        by_cases hb : b = a
        · simp [insertWord, lookupWord, hb]
        · have hb' : a ≠ b := fun e => hb e.symm
          simp [insertWord, lookupWord, hb, hb']
      · simp only [insertWord, hlt, heq, if_false, lookupWord, ih]
        by_cases hkb : k = b
        · have hb : b ≠ a := by omega
          simp [hkb, hb]
        · simp [hkb]

theorem Memory.read_write (m : Memory) (a b : Nat) (w : InstrWord) (h : m.wf) :
    (m.write a w).read b = if b = a then some w else m.read b :=
  lookupWord_insertWord m.cells a b w h

theorem lookupWord_insertWord_same (cells : List ProgramCell) (a : Nat) (w : InstrWord) :
    lookupWord (insertWord cells a w) a = some w := by
  induction cells with
  | nil => simp [insertWord, lookupWord]
  | cons cell rest ih =>
    obtain ⟨k, v⟩ := cell
    by_cases hlt : a < k
    · simp [insertWord, hlt, lookupWord]
    · by_cases heq : a = k
      · simp [insertWord, heq, lookupWord]
      · have hk : k ≠ a := fun e => heq e.symm
        simp [insertWord, hlt, heq, hk, lookupWord, ih]

/-- Reading back what was written needs no canonical form. -/
@[simp] theorem Memory.read_write_same (m : Memory) (a : Nat) (w : InstrWord) : (m.write a w).read a = some w :=
  lookupWord_insertWord_same m.cells a w

/-! ### The canonical form -/

theorem mem_insertWord {cells : List ProgramCell} {a : Nat} {w : InstrWord} {c : ProgramCell}
    (h : c ∈ insertWord cells a w) : c = (a, w) ∨ c ∈ cells := by
  induction cells with
  | nil => simpa [insertWord] using h
  | cons cell rest ih =>
    obtain ⟨k, v⟩ := cell
    by_cases hlt : a < k
    · simpa [insertWord, hlt] using h
    · by_cases heq : a = k
      · subst heq
        simp only [insertWord, Nat.lt_irrefl, if_true, if_false] at h
        rcases List.mem_cons.1 h with rfl | h
        · exact .inl rfl
        · exact .inr (List.mem_cons_of_mem _ h)
      · simp only [insertWord, hlt, heq, if_false] at h
        rcases List.mem_cons.1 h with rfl | h
        · exact .inr (List.mem_cons_self ..)
        · rcases ih h with h | h
          · exact .inl h
          · exact .inr (List.mem_cons_of_mem _ h)

theorem insertWord_rising (cells : List ProgramCell) (a : Nat) (w : InstrWord)
    (h : cells.Pairwise fun c d => c.1 < d.1) : (insertWord cells a w).Pairwise fun c d => c.1 < d.1 := by
  induction cells with
  | nil => simp [insertWord]
  | cons cell rest ih =>
    obtain ⟨k, v⟩ := cell
    obtain ⟨hk, hrest⟩ := List.pairwise_cons.1 h
    by_cases hlt : a < k
    · simp only [insertWord, hlt, if_true]
      refine List.pairwise_cons.2 ⟨fun c hc => ?_, h⟩
      rcases List.mem_cons.1 hc with rfl | hc
      · exact hlt
      · exact Nat.lt_trans hlt (hk c hc)
    · by_cases heq : a = k
      · subst heq
        simp only [insertWord, Nat.lt_irrefl, if_false, if_true]
        exact List.pairwise_cons.2 ⟨hk, hrest⟩
      · simp only [insertWord, hlt, heq, if_false]
        refine List.pairwise_cons.2 ⟨fun c hc => ?_, ih hrest⟩
        rcases mem_insertWord hc with rfl | hc
        · exact Nat.lt_of_le_of_ne (Nat.le_of_not_lt hlt) (fun e => heq e.symm)
        · exact hk c hc

/-- Loading a word keeps the canonical form. -/
theorem Memory.write_wf {m : Memory} (h : m.wf) (a : Nat) (w : InstrWord) : (m.write a w).wf :=
  insertWord_rising m.cells a w h

theorem zipIdx_rising (ws : List InstrWord) (k : Nat) :
    ((ws.zipIdx k).map fun p => (p.2, p.1)).Pairwise fun (c d : ProgramCell) => c.1 < d.1 := by
  induction ws generalizing k with
  | nil => simp
  | cons w ws ih =>
    simp only [List.zipIdx_cons, List.map_cons]
    refine List.pairwise_cons.2 ⟨fun c hc => ?_, ih (k + 1)⟩
    obtain ⟨⟨v, i⟩, hmem, rfl⟩ := List.mem_map.1 hc
    exact (List.mem_zipIdx hmem).1

/-- A loaded program is in the canonical form. -/
theorem Memory.ofWords_wf (ws : List InstrWord) : (Memory.ofWords ws).wf := zipIdx_rising ws 0

/-- The memory of the reset state is in the canonical form. -/
theorem State.reset_program_wf : State.reset.program.wf := by decide

end Sys2Proof.Machine
end

