-- ==== Sys2Proof/Laws/Operands.lean ====
section
/-! SUPPORT. Register bytes and slots, and everything the two operand forms of the ALU class can do. -/

namespace Sys2Proof.Machine

/-! ### Register bytes -/

@[simp] theorem slotOf_slotByte (d : Slot) : slotOf (slotByte d) = some d := by
  cases d <;> rfl

theorem slotByte_toNat_le (d : Slot) : (slotByte d).toNat ≤ 7 := by
  cases d <;> decide

theorem slotOf_cases (b : Byte) : (∃ d, slotOf b = some d ∧ b = slotByte d) ∨ (7 < b.toNat ∧ slotOf b = none) := by
  by_cases h : 7 < b.toNat
  · refine .inr ⟨h, ?_⟩
    unfold slotOf
    split <;> first | omega | rfl
  · have hb : b.toNat = 0 ∨ b.toNat = 1 ∨ b.toNat = 2 ∨ b.toNat = 3 ∨ b.toNat = 4 ∨ b.toNat = 5 ∨
        b.toNat = 6 ∨ b.toNat = 7 := by omega
    refine .inl ?_
    rcases hb with h | h | h | h | h | h | h | h
    · exact ⟨.x0, by simp [slotOf, h], BitVec.eq_of_toNat_eq h⟩
    · exact ⟨.x1, by simp [slotOf, h], BitVec.eq_of_toNat_eq h⟩
    · exact ⟨.x2, by simp [slotOf, h], BitVec.eq_of_toNat_eq h⟩
    · exact ⟨.x3, by simp [slotOf, h], BitVec.eq_of_toNat_eq h⟩
    · exact ⟨.x4, by simp [slotOf, h], BitVec.eq_of_toNat_eq h⟩
    · exact ⟨.x5, by simp [slotOf, h], BitVec.eq_of_toNat_eq h⟩
    · exact ⟨.x6, by simp [slotOf, h], BitVec.eq_of_toNat_eq h⟩
    · exact ⟨.x7, by simp [slotOf, h], BitVec.eq_of_toNat_eq h⟩

theorem slotOf_eq_none {b : Byte} (h : 7 < b.toNat) : slotOf b = none := by
  rcases slotOf_cases b with ⟨d, -, rfl⟩ | ⟨-, hb⟩
  · have := slotByte_toNat_le d; omega
  · exact hb

/-! ### The ALU-class cycle -/

/-- The ordered cycle of the ALU class computes its closed form (40_cycle.md R85). -/
theorem aluCycle_effect (op : AluOp) (d : Slot) (v2 : Word) (s : State) :
    AluEffect d (alu op (s.read d) v2) s (aluCycle op d v2 s) where
  result := by intro h6 h7; simp [aluCycle, h6, h7]
  flag := by simp [aluCycle, State.zf, State.updateZf, zeroFlag]
  pointer := by
    have hp : (aluCycle op d v2 s).pc = ((s.write d (alu op (s.read d) v2)).updateZf d).pc + 1 :=
      State.advance_pc _
    rw [hp, State.pc, State.updateZf_read_of_ne _ _ (by decide), State.read_write, State.pc]
    by_cases h : d = .x6
    · simp [h]
    · rw [if_neg h, if_neg fun e => h e.symm]
  frame := by intro i hd h6 h7; simp [aluCycle, hd, h6, h7]
  status := rfl
  parameters := ⟨rfl, rfl⟩

/-- The ALU-class cycle as its three writes, the flag that of the stored destination (40_cycle.md R82, R83). -/
theorem aluCycle_eq_writes (op : AluOp) (d : Slot) (v2 : Word) (s : State) :
    (aluCycle op d v2 s).zf = (if (s.write d (alu op (s.read d) v2)).read d = 0 then 1 else 0) ∧
      aluCycle op d v2 s =
        ((s.write d (alu op (s.read d) v2)).write .x7 (aluCycle op d v2 s).zf).advance := by
  have h : (aluCycle op d v2 s).zf = (if (s.write d (alu op (s.read d) v2)).read d = 0 then 1 else 0) := by
    simp [aluCycle, State.zf, State.updateZf, zeroFlag]
  refine ⟨h, ?_⟩
  rw [h]
  rfl

/-- Everything format RR can do (60_exceptions.md R144): the ALU-class cycle on two slots, or BadRegister. -/
theorem execRR_cases (op : AluOp) (rd rs : Byte) (s : State) :
    (∃ d r, rd = slotByte d ∧ rs = slotByte r ∧ execRR op rd rs s = .next (aluCycle op d (s.read r) s)) ∨
      ((7 < rd.toNat ∨ 7 < rs.toNat) ∧ execRR op rd rs s = .next (s.stop .badRegister)) := by
  rcases slotOf_cases rd with ⟨d, hd, rfl⟩ | ⟨hlt, hd⟩
  · rcases slotOf_cases rs with ⟨r, hr, rfl⟩ | ⟨hlt, hr⟩
    · exact .inl ⟨d, r, rfl, rfl, by simp [execRR]⟩
    · exact .inr ⟨.inr hlt, by simp [execRR, hr]⟩
  · exact .inr ⟨.inl hlt, by simp [execRR, hd]⟩

/-- Everything format RI can do (60_exceptions.md R144). -/
theorem execRI_cases (op : AluOp) (rd : Byte) (imm : Word) (s : State) :
    (∃ d, rd = slotByte d ∧ execRI op rd imm s = .next (aluCycle op d imm s)) ∨
      (7 < rd.toNat ∧ execRI op rd imm s = .next (s.stop .badRegister)) := by
  rcases slotOf_cases rd with ⟨d, hd, rfl⟩ | ⟨hlt, hd⟩
  · exact .inl ⟨d, rfl, by simp [execRI]⟩
  · exact .inr ⟨hlt, by simp [execRI, hd]⟩

theorem execRR_slotByte (op : AluOp) (d r : Slot) (s : State) :
    execRR op (slotByte d) (slotByte r) s = .next (aluCycle op d (s.read r) s) := by
  simp [execRR]

theorem execRI_slotByte (op : AluOp) (d : Slot) (imm : Word) (s : State) :
    execRI op (slotByte d) imm s = .next (aluCycle op d imm s) := by
  simp [execRI]

theorem execRR_badRegister (op : AluOp) {rd rs : Byte} (s : State) (h : 7 < rd.toNat ∨ 7 < rs.toNat) :
    execRR op rd rs s = .next (s.stop .badRegister) := by
  rcases execRR_cases op rd rs s with ⟨d, r, rfl, rfl, -⟩ | ⟨-, e⟩
  · have := slotByte_toNat_le d; have := slotByte_toNat_le r; omega
  · exact e

theorem execRI_badRegister (op : AluOp) {rd : Byte} (imm : Word) (s : State) (h : 7 < rd.toNat) :
    execRI op rd imm s = .next (s.stop .badRegister) := by
  rcases execRI_cases op rd imm s with ⟨d, rfl, -⟩ | ⟨-, e⟩
  · have := slotByte_toNat_le d; omega
  · exact e

/-- The flag of an ALU-class cycle is 1 exactly when its result is 0 (40_cycle.md R82). -/
theorem AluEffect.zf_eq_one_iff {d : Slot} {r : Word} {s t : State} (h : AluEffect d r s t) : t.zf = 1 ↔ r = 0 := by
  rw [h.flag]; split <;> simp_all

end Sys2Proof.Machine
end

