-- ==== Sys2Proof/Laws/Cycle.lean ====
section
/-! SUPPORT. Everything an instruction and a step can do, said once. -/

namespace Sys2Proof.Machine

/-- Everything an instruction can do: the ALU-class cycle on its destination, the BadRegister fault, the advance with or
without a cleared flag, a jump, or the halt Quit. No instruction faults or refuses. -/
theorem exec_cases (i : Instr) (s : State) :
    (∃ op d v2, i.isAlu = true ∧ i.destByte = some (slotByte d) ∧ exec i s = .next (aluCycle op d v2 s)) ∨
      (i.isAlu = true ∧ i.wellFormed = false ∧ exec i s = .next (s.stop .badRegister)) ∨
      (i = .nop ∧ s.config.nopZf = .preserve ∧ exec i s = .next s.advance) ∨
      (i = .nop ∧ s.config.nopZf = .clear ∧ exec i s = .next s.clearZf.advance) ∨
      (i = .quit ∧ exec i s = .next (s.stop .quit)) ∨
      (∃ t, (i = .jump t ∨ i = .jumpIfZero t ∧ s.zf ≠ 0) ∧ exec i s = .next (s.jumpTo t)) ∨
      (∃ t, i = .jumpIfZero t ∧ s.zf = 0 ∧ exec i s = .next s.advance) := by
  have rr : ∀ (op : AluOp) (rd rs : Byte) (j : Instr), j.isAlu = true → j.destByte = some rd →
      (j.wellFormed = (decide (regByteOk rd) && decide (regByteOk rs))) → exec j s = execRR op rd rs s →
      (∃ op d v2, j.isAlu = true ∧ j.destByte = some (slotByte d) ∧ exec j s = .next (aluCycle op d v2 s)) ∨
        (j.isAlu = true ∧ j.wellFormed = false ∧ exec j s = .next (s.stop .badRegister)) := by
    intro op rd rs j halu hdest hwf he
    rcases execRR_cases op rd rs s with ⟨d, r, rfl, rfl, h⟩ | ⟨hlt, h⟩
    · exact .inl ⟨op, d, s.read r, halu, hdest, he.trans h⟩
    · refine .inr ⟨halu, ?_, he.trans h⟩
      rw [hwf]
      rcases hlt with h | h <;> simp [regByteOk, Nat.not_le.2 h]
  have ri : ∀ (op : AluOp) (rd : Byte) (imm : Word) (j : Instr), j.isAlu = true → j.destByte = some rd →
      (j.wellFormed = decide (regByteOk rd)) → exec j s = execRI op rd imm s →
      (∃ op d v2, j.isAlu = true ∧ j.destByte = some (slotByte d) ∧ exec j s = .next (aluCycle op d v2 s)) ∨
        (j.isAlu = true ∧ j.wellFormed = false ∧ exec j s = .next (s.stop .badRegister)) := by
    intro op rd imm j halu hdest hwf he
    rcases execRI_cases op rd imm s with ⟨d, rfl, h⟩ | ⟨hlt, h⟩
    · exact .inl ⟨op, d, imm, halu, hdest, he.trans h⟩
    · refine .inr ⟨halu, ?_, he.trans h⟩
      rw [hwf]
      simp [regByteOk, Nat.not_le.2 hlt]
  have widen : ∀ {A B C : Prop}, A ∨ B → A ∨ B ∨ C := fun h => h.elim .inl (fun b => .inr (.inl b))
  cases i with
  | nop =>
    rcases h : s.config.nopZf with _ | _
    · exact .inr (.inr (.inl ⟨rfl, rfl, by simp [exec, execNop, h]⟩))
    · exact .inr (.inr (.inr (.inl ⟨rfl, rfl, by simp [exec, execNop, h]⟩)))
  | addReg rd rs => exact widen (rr .add rd rs _ rfl rfl rfl rfl)
  | addImm rd imm => exact widen (ri .add rd imm _ rfl rfl rfl rfl)
  | subReg rd rs => exact widen (rr .sub rd rs _ rfl rfl rfl rfl)
  | subImm rd imm => exact widen (ri .sub rd imm _ rfl rfl rfl rfl)
  | xorReg rd rs => exact widen (rr .xor rd rs _ rfl rfl rfl rfl)
  | orReg rd rs => exact widen (rr .or rd rs _ rfl rfl rfl rfl)
  | andReg rd rs => exact widen (rr .and rd rs _ rfl rfl rfl rfl)
  | move rd rs => exact widen (rr .pass rd rs _ rfl rfl rfl rfl)
  | quit => exact .inr (.inr (.inr (.inr (.inl ⟨rfl, rfl⟩))))
  | jump t => exact .inr (.inr (.inr (.inr (.inr (.inl ⟨t, .inl rfl, rfl⟩)))))
  | jumpIfZero t =>
    by_cases h : s.zf = 0
    · exact .inr (.inr (.inr (.inr (.inr (.inr ⟨t, rfl, h, by simp [exec, execJumpIfZero, State.zfSet, h]⟩)))))
    · exact .inr (.inr (.inr (.inr (.inr (.inl
        ⟨t, .inr ⟨rfl, h⟩, if_pos (decide_eq_true h)⟩)))))

/-- A stopped machine is left as it is (10_state.md R23). -/
theorem step_of_ended {s : State} (h : s.Ended) : step s = .next s := by
  unfold step edge
  split <;> first | rfl | (rename_i hr; exact absurd hr h)

theorem step_of_running {s : State} (h : s.status = .running) : step s = cycle s := by
  simp [step, edge, h]

/-- Everything a step can do: nothing on a stopped machine, the out-of-bounds halt, the stop of the model at a word nobody
supplied, or what the decoded word says. -/
theorem step_cases (s : State) :
    (s.Ended ∧ step s = .next s) ∨
      (s.status = .running ∧ s.config.capacity ≤ s.pc.toNat ∧ step s = .next (s.stop .outOfBounds)) ∨
      (s.status = .running ∧ s.pc.toNat < s.config.capacity ∧ s.fetch = none ∧
        step s = .fault (.noProgramWord s.pc)) ∨
      (∃ w, s.status = .running ∧ s.pc.toNat < s.config.capacity ∧ s.fetch = some w ∧
        step s = execDecoded (decode w) s) := by
  by_cases hr : s.status = .running
  · rw [step_of_running hr]
    by_cases hb : s.pc.toNat < s.config.capacity
    · rcases hf : s.fetch with _ | w
      · exact .inr (.inr (.inl ⟨hr, hb, rfl, by simp [cycle, State.inRange, hb, hf]⟩))
      · exact .inr (.inr (.inr ⟨w, hr, hb, rfl, by simp [cycle, State.inRange, hb, hf]⟩))
    · exact .inr (.inl ⟨hr, Nat.le_of_not_lt hb, by simp [cycle, State.inRange, hb]⟩)
  · exact .inl ⟨hr, step_of_ended hr⟩

/-- A word placed for the next fetch leaves the invariant in place (log 12). -/
theorem State.placeFetchWord_inv {s : State} (h : s.Inv) (w : InstrWord) : (s.placeFetchWord w).Inv := by
  obtain ⟨hm, ⟨hlo, hhi⟩, hin, hz⟩ := h
  have hpc : s.pc.toNat < 65536 := s.pc.isLt
  refine ⟨Memory.write_wf hm _ w, ⟨?_, ?_⟩, fun c hc => ?_, hz⟩
  · rw [State.placeFetchWord_capacity]; omega
  · rw [State.placeFetchWord_capacity]; omega
  · rw [State.placeFetchWord_capacity]
    rcases mem_insertWord hc with rfl | hc
    · exact Nat.lt_of_lt_of_le (Nat.lt_succ_self _) (Nat.le_max_right ..)
    · exact Nat.lt_of_lt_of_le (hin c hc) (Nat.le_max_left ..)

end Sys2Proof.Machine
end

