-- ==== Sys2Proof/Laws/Decode.lean ====
section
/-! SUPPORT. The bytes of a packed word, and a literal put together from its two bytes. -/

namespace Sys2Proof

/-- The word of four bytes as a number (00_scope.md R6). -/
theorem packBytes_toNat (b0 b1 b2 b3 : Byte) :
    (packBytes b0 b1 b2 b3).toNat =
      b0.toNat * 16777216 + b1.toNat * 65536 + b2.toNat * 256 + b3.toNat := by
  have h (n : Nat) (a : BitVec n) (b : Byte) : (a ++ b).toNat = a.toNat * 256 + b.toNat := by
    rw [BitVec.toNat_append, ← Nat.shiftLeft_add_eq_or_of_lt b.isLt, Nat.shiftLeft_eq]
  have e := (h 24 (b0 ++ b1 ++ b2) b3).trans
    (congrArg (· * 256 + b3.toNat) ((h 16 (b0 ++ b1) b2).trans (congrArg (· * 256 + b2.toNat) (h 8 b0 b1))))
  refine e.trans ?_
  omega

theorem byte0_toNat (w : InstrWord) : (byte0 w).toNat = w.toNat / 16777216 := by
  have := w.isLt
  simp [byte0, Nat.shiftRight_eq_div_pow]
  omega

theorem byte1_toNat (w : InstrWord) : (byte1 w).toNat = w.toNat / 65536 % 256 := by
  simp [byte1, Nat.shiftRight_eq_div_pow]

theorem byte2_toNat (w : InstrWord) : (byte2 w).toNat = w.toNat / 256 % 256 := by
  simp [byte2, Nat.shiftRight_eq_div_pow]

theorem byte3_toNat (w : InstrWord) : (byte3 w).toNat = w.toNat % 256 := by
  simp [byte3]

@[simp] theorem byte0_packBytes (b0 b1 b2 b3 : Byte) : byte0 (packBytes b0 b1 b2 b3) = b0 := by
  apply BitVec.eq_of_toNat_eq
  have h1 := b1.isLt; have h2 := b2.isLt; have h3 := b3.isLt
  rw [byte0_toNat, packBytes_toNat]; omega

@[simp] theorem byte1_packBytes (b0 b1 b2 b3 : Byte) : byte1 (packBytes b0 b1 b2 b3) = b1 := by
  apply BitVec.eq_of_toNat_eq
  have h1 := b1.isLt; have h2 := b2.isLt; have h3 := b3.isLt
  rw [byte1_toNat, packBytes_toNat]; omega

@[simp] theorem byte2_packBytes (b0 b1 b2 b3 : Byte) : byte2 (packBytes b0 b1 b2 b3) = b2 := by
  apply BitVec.eq_of_toNat_eq
  have h2 := b2.isLt; have h3 := b3.isLt
  rw [byte2_toNat, packBytes_toNat]; omega

@[simp] theorem byte3_packBytes (b0 b1 b2 b3 : Byte) : byte3 (packBytes b0 b1 b2 b3) = b3 := by
  apply BitVec.eq_of_toNat_eq
  have h3 := b3.isLt
  rw [byte3_toNat, packBytes_toNat]; omega

/-- A word is the pack of its bytes. -/
theorem packBytes_bytes (w : InstrWord) : packBytes (byte0 w) (byte1 w) (byte2 w) (byte3 w) = w := by
  apply BitVec.eq_of_toNat_eq
  rw [packBytes_toNat, byte0_toNat, byte1_toNat, byte2_toNat, byte3_toNat]; omega

/-- An opcode byte above 11 selects no instruction, whatever the other bytes (30_encoding.md R62). -/
theorem decode_of_opcode_gt {w : InstrWord} (h : 11 < (byte0 w).toNat) : decode w = .unrecognised (byte0 w) := by
  unfold decode
  split <;> first | rfl | omega

theorem literal_toNat (hi lo : Byte) : (literal hi lo).toNat = hi.toNat * 256 + lo.toNat := by
  have h : (hi ++ lo).toNat = hi.toNat * 256 + lo.toNat := by
    rw [BitVec.toNat_append, ← Nat.shiftLeft_add_eq_or_of_lt lo.isLt, Nat.shiftLeft_eq]
  exact h

theorem literalHi_toNat (v : Word) : (literalHi v).toNat = v.toNat / 256 := by
  have := v.isLt
  simp [literalHi, Nat.shiftRight_eq_div_pow]
  omega

theorem literalLo_toNat (v : Word) : (literalLo v).toNat = v.toNat % 256 := by
  simp [literalLo]

@[simp] theorem literal_hi_lo (v : Word) : literal (literalHi v) (literalLo v) = v := by
  apply BitVec.eq_of_toNat_eq
  rw [literal_toNat, literalHi_toNat, literalLo_toNat]; omega

@[simp] theorem literalHi_literal (hi lo : Byte) : literalHi (literal hi lo) = hi := by
  apply BitVec.eq_of_toNat_eq
  have := lo.isLt
  rw [literalHi_toNat, literal_toNat]; omega

@[simp] theorem literalLo_literal (hi lo : Byte) : literalLo (literal hi lo) = lo := by
  apply BitVec.eq_of_toNat_eq
  have := lo.isLt
  rw [literalLo_toNat, literal_toNat]; omega

/-! ### The canonical word of each format as a number -/

theorem encodeRR_toNat (op rd rs : Byte) :
    (encodeRR op rd rs).toNat = op.toNat * 16777216 + rd.toNat * 65536 + rs.toNat * 256 := by
  simp [encodeRR, packBytes_toNat]

theorem encodeRI_toNat (op rd : Byte) (imm : Word) :
    (encodeRI op rd imm).toNat = op.toNat * 16777216 + rd.toNat * 65536 + imm.toNat := by
  rw [encodeRI, packBytes_toNat, literalHi_toNat, literalLo_toNat]; omega

theorem encodeL_toNat (op : Byte) (imm : Word) :
    (encodeL op imm).toNat = op.toNat * 16777216 + imm.toNat * 256 := by
  have := imm.isLt
  rw [encodeL, packBytes_toNat, literalHi_toNat, literalLo_toNat]; simp; omega

end Sys2Proof
end

