-- ==== Sys2Proof/Laws/PerInstr.lean ====
section
/-! SUPPORT. Facts about every instruction as syntax, one lemma per constructor. -/

namespace Sys2Proof.Laws.OpcodeByte

/-- Byte 0 of the canonical word is the opcode of 30_encoding.md R60, and that opcode is one of the twelve. -/
def Statement (i : Instr) : Prop := byte0 (encode i) = i.opcode ∧ i.opcode.toNat ≤ 11

theorem nop : Statement .nop := ⟨byte0_packBytes .., by decide⟩
theorem addReg (rd rs : Byte) : Statement (.addReg rd rs) := ⟨byte0_packBytes .., by simp [Instr.opcode]⟩
theorem addImm (rd : Byte) (imm : Word) : Statement (.addImm rd imm) := ⟨byte0_packBytes .., by simp [Instr.opcode]⟩
theorem subReg (rd rs : Byte) : Statement (.subReg rd rs) := ⟨byte0_packBytes .., by simp [Instr.opcode]⟩
theorem subImm (rd : Byte) (imm : Word) : Statement (.subImm rd imm) := ⟨byte0_packBytes .., by simp [Instr.opcode]⟩
theorem xorReg (rd rs : Byte) : Statement (.xorReg rd rs) := ⟨byte0_packBytes .., by simp [Instr.opcode]⟩
theorem orReg (rd rs : Byte) : Statement (.orReg rd rs) := ⟨byte0_packBytes .., by simp [Instr.opcode]⟩
theorem andReg (rd rs : Byte) : Statement (.andReg rd rs) := ⟨byte0_packBytes .., by simp [Instr.opcode]⟩
theorem move (rd rs : Byte) : Statement (.move rd rs) := ⟨byte0_packBytes .., by simp [Instr.opcode]⟩
theorem quit : Statement .quit := ⟨byte0_packBytes .., by decide⟩
theorem jump (imm : Word) : Statement (.jump imm) := ⟨byte0_packBytes .., by simp [Instr.opcode]⟩
theorem jumpIfZero (imm : Word) : Statement (.jumpIfZero imm) := ⟨byte0_packBytes .., by simp [Instr.opcode]⟩

end Sys2Proof.Laws.OpcodeByte
end

