-- ==== Sys2Proof/Tests/Slice0.lean ====
section
/-! SUPPORT. Small tests. Expected values come from the spec: words written out from the tables of 30_encoding.md R51 to R54
and R60, one-cycle vectors from 95_test_vectors.md L1 and L2. Then, for every statement with hypotheses, a witness that
meets them. -/

namespace Sys2Proof.Tests

open Sys2Proof Sys2Proof.Machine

/-- A running machine with the given slots and a word at the instruction pointer. -/
def at8 (x0 x1 x2 x3 x4 x5 x6 x7 : Word) (w : InstrWord) : State :=
  { regs := ⟨x0, x1, x2, x3, x4, x5, x6, x7⟩, status := .running, program := ⟨[(x6.toNat, w)]⟩, config := Config.default }

/-- The slots and the status after an outcome, if it is a next state. -/
def seen (o : Host.Outcome State Fault Refusal) : Option (RegFile × Status) :=
  match o with
  | .next t => some (t.regs, t.status)
  | .fault _ => none
  | .refused _ => none

/-- The slots and the status a vector expects. -/
def want (x0 x1 x2 x3 x4 x5 x6 x7 : Word) (st : Status) : Option (RegFile × Status) :=
  some (⟨x0, x1, x2, x3, x4, x5, x6, x7⟩, st)

/-- A state with other policies. -/
def withPolicies (s : State) (n : NopZf) (u : UnknownOpcodePolicy) : State :=
  { s with config := { s.config with nopZf := n, unknownOpcode := u } }

/-- A state with another `CAPACITY`. -/
def withCapacity (s : State) (c : Nat) : State := { s with config := { s.config with capacity := c } }

/-! ### Well-formedness: each register byte is checked -/

theorem test_wf_addReg_rd : (Instr.addReg 8 0).wellFormed = false := by decide
theorem test_wf_addReg_rs : (Instr.addReg 0 8).wellFormed = false := by decide
theorem test_wf_addImm_rd : (Instr.addImm 8 0).wellFormed = false := by decide
theorem test_wf_subReg_rd : (Instr.subReg 8 0).wellFormed = false := by decide
theorem test_wf_subReg_rs : (Instr.subReg 0 8).wellFormed = false := by decide
theorem test_wf_subImm_rd : (Instr.subImm 255 0).wellFormed = false := by decide
theorem test_wf_xorReg_rd : (Instr.xorReg 8 0).wellFormed = false := by decide
theorem test_wf_xorReg_rs : (Instr.xorReg 0 8).wellFormed = false := by decide
theorem test_wf_orReg_rd : (Instr.orReg 16 0).wellFormed = false := by decide
theorem test_wf_orReg_rs : (Instr.orReg 0 8).wellFormed = false := by decide
theorem test_wf_andReg_rd : (Instr.andReg 8 0).wellFormed = false := by decide
theorem test_wf_andReg_rs : (Instr.andReg 0 8).wellFormed = false := by decide
theorem test_wf_move_rd : (Instr.move 9 0).wellFormed = false := by decide
theorem test_wf_move_rs : (Instr.move 0 9).wellFormed = false := by decide
theorem test_wf_seven_is_good : (Instr.addReg 7 7).wellFormed = true := by decide

/-! ### Decoding: every constructor's word, bit by bit from R51 to R54 and R60 -/

theorem test_decode_nop : decode 0b00000000_00000000_00000000_00000000 = .instr .nop := by decide
theorem test_decode_addReg : decode 0b00000001_00000010_00000101_00000000 = .instr (.addReg 2 5) := by decide
theorem test_decode_addImm : decode 0b00000010_00000011_00000001_00101100 = .instr (.addImm 3 300) := by decide
theorem test_decode_subReg : decode 0b00000011_00000010_00000011_00000000 = .instr (.subReg 2 3) := by decide
theorem test_decode_subImm : decode 0b00000100_00000111_10000000_00000001 = .instr (.subImm 7 0x8001) := by decide
theorem test_decode_xorReg : decode 0b00000101_00000000_00000001_00000000 = .instr (.xorReg 0 1) := by decide
theorem test_decode_orReg : decode 0b00000110_00000100_00000110_00000000 = .instr (.orReg 4 6) := by decide
theorem test_decode_andReg : decode 0b00000111_00000110_00000001_00000000 = .instr (.andReg 6 1) := by decide
theorem test_decode_move : decode 0b00001000_00000001_00000000_00000000 = .instr (.move 1 0) := by decide
theorem test_decode_quit : decode 0b00001001_00000000_00000000_00000000 = .instr .quit := by decide
theorem test_decode_jump : decode 0b00001010_00000001_00101100_00000000 = .instr (.jump 300) := by decide
theorem test_decode_jumpIfZero : decode 0b00001011_11111111_00000100_00000000 = .instr (.jumpIfZero 0xFF04) := by decide
theorem test_decode_opcode_before_register : decode 0xFF090900 = .unrecognised 255 := by decide
theorem test_decode_not_modulo_eight : decode 0x06100000 = .badRegister := by decide

/-- The encoder against the words of R66's table and of the source's example (L1.1). -/
theorem test_encode_words :
    [encode .nop, encode (.addReg 0 1), encode (.addImm 0 300), encode (.subReg 2 3), encode (.subImm 0 1),
      encode (.xorReg 0 1), encode (.orReg 0 1), encode (.andReg 0 1), encode (.move 1 0), encode .quit,
      encode (.jump 1), encode (.jumpIfZero 4)] =
    [0x00000000, 0x01000100, 0x0200012C, 0x03020300, 0x04000001, 0x05000100, 0x06000100, 0x07000100, 0x08010000,
      0x09000000, 0x0A000100, 0x0B000400] := by decide

/-- Every row of the opcode table decodes in the table's numbering. -/
theorem test_table_words :
    [0, 1, 2, 3, 4, 5, 6, 7, 8, 9, 10, 11, 12].map (fun op => decodeTableWord 32 (op * 16777216)) =
    [some .nop, some (.addReg 0 0), some (.addImm 0 0), some (.subReg 0 0), some (.subImm 0 0), some (.xorReg 0 0),
      some (.orReg 0 0), some (.andReg 0 0), some (.move 0 0), some .quit, some (.jump 0), some (.jumpIfZero 0),
      none] := by decide

/-! ### One cycle each (95_test_vectors.md L2) -/

theorem test_addReg_wraps : seen (step (at8 65535 1 0 0 0 0 10 0 0x01000100)) = want 0 1 0 0 0 0 11 1 .running := by decide
theorem test_addReg_same_slot_doubles :
    seen (step (at8 0 0 0 40000 0 0 9 0 0x01030300)) = want 0 0 0 14464 0 0 10 0 .running := by decide
theorem test_addImm_both_bytes : seen (step (at8 0 0 0 0 0 0 0 0 0x0200012C)) = want 300 0 0 0 0 0 1 0 .running := by decide
theorem test_addImm_into_pointer : seen (step (at8 0 0 0 0 0 0 10 0 0x02060002)) = want 0 0 0 0 0 0 13 0 .running := by decide
theorem test_subReg_direction : seen (step (at8 0 0 4 10 0 0 7 0 0x03020300)) = want 0 0 65530 10 0 0 8 0 .running := by decide
theorem test_subReg_pointer_cleared : seen (step (at8 0 0 0 0 0 0 20 0 0x03060600)) = want 0 0 0 0 0 0 1 1 .running := by decide
theorem test_subImm_self_loop_at_zero : seen (step (at8 0 0 0 0 0 0 0 0 0x04060001)) = want 0 0 0 0 0 0 0 0 .running := by decide
theorem test_subImm_flag_wins : seen (step (at8 0 0 0 0 0 0 2 1 0x04070001)) = want 0 0 0 0 0 0 3 1 .running := by decide
theorem test_xorReg_complements :
    seen (step (at8 4660 65535 0 0 0 0 2 0 0x05000100)) = want 60875 65535 0 0 0 0 3 0 .running := by decide
theorem test_xorReg_flag_slot : seen (step (at8 0 0 0 0 0 0 2 0 0x05070700)) = want 0 0 0 0 0 0 3 1 .running := by decide
theorem test_orReg : seen (step (at8 240 3855 0 0 0 0 2 0 0x06000100)) = want 4095 3855 0 0 0 0 3 0 .running := by decide
theorem test_orReg_zero : seen (step (at8 0 0 0 0 0 0 2 0 0x06000100)) = want 0 0 0 0 0 0 3 1 .running := by decide
theorem test_andReg_disjoint : seen (step (at8 240 3855 0 0 0 0 2 0 0x07000100)) = want 0 3855 0 0 0 0 3 1 .running := by decide
theorem test_andReg_into_pointer :
    seen (step (at8 0 240 0 0 0 0 255 0 0x07060100)) = want 0 240 0 0 0 0 241 0 .running := by decide
theorem test_move_own_address : seen (step (at8 0 0 0 0 0 0 7 0 0x08000600)) = want 7 0 0 0 0 0 8 0 .running := by decide
theorem test_move_inverts_flag : seen (step (at8 0 0 0 0 0 0 3 1 0x08000700)) = want 1 0 0 0 0 0 4 0 .running := by decide
theorem test_nop_wraps : seen (step (at8 0 0 0 0 0 0 65535 0 0x00000000)) = want 0 0 0 0 0 0 0 0 .running := by decide
theorem test_nop_clear :
    seen (step (withPolicies (at8 0 0 0 0 0 0 3 1 0x00000000) .clear .fault)) = want 0 0 0 0 0 0 4 0 .running := by decide
theorem test_quit : seen (step (at8 1 0 0 0 0 0 4 1 0x09000000)) = want 1 0 0 0 0 0 4 1 .quit := by decide
theorem test_jump : seen (step (at8 0 0 0 0 0 0 3 1 0x0A000100)) = want 0 0 0 0 0 0 1 1 .running := by decide
theorem test_jump_literal_byte : seen (step (at8 0 0 0 0 0 0 2 0 0x0A090000)) = want 0 0 0 0 0 0 2304 0 .running := by decide
theorem test_jumpIfZero_taken_on_two : seen (step (at8 0 0 0 0 0 0 2 2 0x0B000400)) = want 0 0 0 0 0 0 4 2 .running := by decide
theorem test_jumpIfZero_not_taken : seen (step (at8 0 0 0 0 0 0 65535 0 0x0B000400)) = want 0 0 0 0 0 0 0 0 .running := by decide

theorem test_illegal_opcode : seen (step (at8 1 0 0 0 0 0 2 1 0x0C000000)) = want 1 0 0 0 0 0 2 1 .illegalOpcode := by decide
theorem test_legacy_nop :
    seen (step (withPolicies (at8 1 0 0 0 0 0 2 1 0x0C000000) .preserve .legacyNop)) = want 1 0 0 0 0 0 3 0 .running := by decide
theorem test_bad_register : seen (step (at8 0 0 0 0 0 0 2 0 0x01000800)) = want 0 0 0 0 0 0 2 0 .badRegister := by decide
theorem test_out_of_bounds :
    seen (step (withCapacity (at8 4 0 0 0 0 0 16 1 0) 16)) = want 4 0 0 0 0 0 16 1 .outOfBounds := by decide
theorem test_last_address_runs :
    seen (step (withCapacity (at8 0 0 0 0 0 0 15 0 0) 16)) = want 0 0 0 0 0 0 16 0 .running := by decide
theorem test_reset_edge :
    seen (clockEdge ⟨true, 7⟩ { at8 9 9 9 9 9 9 9 1 0 with status := .quit }) = want 0 0 0 0 0 0 7 0 .running := by decide

/-- An address with no program word stops the model (log 3). -/
theorem test_unlisted_word_stops : seen (step State.reset) = none := by decide

/-- Every row of the opcode table runs as the first instruction after reset. -/
theorem test_rows_run_after_reset :
    [0, 1, 2, 3, 4, 5, 6, 7, 8, 9, 10, 11].map
      (fun op => (seen (step (State.reset.withFetchWord 32 (op * 16777216)))).isSome) = List.replicate 12 true := by decide

/-! ### The assembler -/

/-- L1.1: `a r0,r1`, newline, `q`, newline. -/
theorem test_assemble_round_trip :
    assemble ['a', ' ', 'r', '0', ',', 'r', '1', '\n', 'q', '\n'] = .ok [0x01000100, 0x09000000] := by rfl

/-- R68: `jmp` lexes as `j` and a literal above 65535 wraps (`65541` is 5). -/
theorem test_lex_absorbs_and_wraps :
    lex ['j', 'm', 'p', ' ', '6', '5', '5', '4', '1', ';', 'x'] = .ok [.opcode 10, .literal 5] := by rfl

/-- R67: `0` and `9` are the first and the last digit, and the characters beside them in the code are none. -/
theorem test_digit_boundaries : ['/', '0', '9', ':'].map digitValue = [none, some 0, some 9, none] := by decide

/-- R67, U11: `r8` has no rule, so there is no token for it. -/
theorem test_lex_r8_refused : lex ['r', '8'] = .error .badRegisterToken := by rfl

/-- R69: the text ends before the signature is satisfied. -/
theorem test_assemble_end_of_tokens : assemble ['A', ' ', 'r', '0'] = .error .endOfTokens := by rfl

/-! ### Witnesses: the hypotheses of each statement are met -/

theorem test_witness_UnusedBytesAreIgnored :
    (byte0 0x00ABCDEF = byte0 0x00000000 ∧ byte0 0x00ABCDEF = 0) ∧
    (byte0 0x09FFFFFF = byte0 0x09000000 ∧ byte0 0x09FFFFFF = 9) ∧
    (byte0 0x0C000001 = byte0 0x0C000000 ∧ 11 < (byte0 0x0C000001).toNat) ∧
    (byte0 0x010707FF = byte0 0x01070700 ∧ byte1 0x010707FF = byte1 0x01070700 ∧ byte2 0x010707FF = byte2 0x01070700 ∧
      byte0 0x010707FF ≠ 2 ∧ byte0 0x010707FF ≠ 4) := by decide

theorem test_witness_EncodeOfDecodeIsCanonicalWord :
    decode 0x00ABCDEF = .instr .nop ∧ decode 0x010707FF = .instr (.addReg 7 7) ∧
    decode 0x0207FFFF = .instr (.addImm 7 65535) ∧ decode 0x0A0000FF = .instr (.jump 0) := by decide

theorem test_witness_RegisterByteNamesSlotOrFaults :
    (7 : Byte).toNat < 8 ∧ 8 ≤ (8 : Byte).toNat := by decide

theorem test_witness_LiteralIsTheFieldAsItStands :
    decode 0x0207FFFF = .instr (.addImm 7 65535) ∧ decode 0x0407FFFF = .instr (.subImm 7 65535) ∧
    decode 0x0AFFFF00 = .instr (.jump 65535) ∧ decode 0x0BFFFF00 = .instr (.jumpIfZero 65535) := by decide

/-- The address is the last one in range. -/
theorem test_witness_StepRunsDecodedInstruction :
    let s := at8 2 3 0 0 0 0 65535 0 0x01000100
    s.status = .running ∧ s.pc.toNat < s.config.capacity ∧ s.program.read s.pc.toNat = some 0x01000100 ∧
      decode 0x01000100 = .instr (.addReg 0 1) := by decide

theorem test_witness_StepMatchesClosedForm :
    let s := at8 0 0 0 0 0 0 0 0 0x08060000
    s.status = .running ∧ s.pc.toNat < s.config.capacity ∧ s.program.read s.pc.toNat = some 0x08060000 := by decide

/-- The first address out of range; also for the second clause of HaltsAndFaultsChangeOnlyStatus. -/
theorem test_witness_OutOfBoundsHaltsBeforeFetch :
    let s := withCapacity (at8 0 0 0 0 0 0 16 0 0) 16
    s.status = .running ∧ s.config.capacity ≤ s.pc.toNat := by decide

theorem test_witness_UndecodableWordRaisesItsFault :
    (let s := at8 0 0 0 0 0 0 2 0 0x0C000000
     s.status = .running ∧ s.pc.toNat < s.config.capacity ∧ s.program.read s.pc.toNat = some 0x0C000000 ∧
       11 < (byte0 0x0C000000).toNat ∧ s.config.unknownOpcode = .fault) ∧
    (let s := withPolicies (at8 0 0 0 0 0 0 2 0 0x0C000000) .preserve .legacyNop
     s.status = .running ∧ s.pc.toNat < s.config.capacity ∧ s.program.read s.pc.toNat = some 0x0C000000 ∧
       11 < (byte0 0x0C000000).toNat ∧ s.config.unknownOpcode = .legacyNop) ∧
    (let s := at8 0 0 0 0 0 0 2 0 0x08000800
     s.status = .running ∧ s.pc.toNat < s.config.capacity ∧ s.program.read s.pc.toNat = some 0x08000800 ∧
       1 ≤ (byte0 0x08000800).toNat ∧ (byte0 0x08000800).toNat ≤ 8 ∧
       (byte0 0x08000800 ≠ 2 ∧ byte0 0x08000800 ≠ 4 ∧ 7 < (byte2 0x08000800).toNat)) := by decide

theorem test_witness_StoppedMachineIsUnchanged : { at8 0 0 0 0 0 0 0 0 0 with status := .quit }.status ≠ .running := by decide

theorem test_witness_HaltsAndFaultsChangeOnlyStatus :
    ∃ t, step (at8 0 0 0 0 0 0 4 1 0x09000000) = .next t ∧ t.status ≠ .running := ⟨_, rfl, by decide⟩

theorem test_witness_TotalProgramAlwaysSteps : (withCapacity (at8 0 0 0 0 0 0 0 0 0x0A000000) 1).ProgramTotal := by
  unfold State.ProgramTotal; decide

theorem test_witness_StepDependsOnlyOnFetchedWord :
    let s := at8 0 0 0 0 0 0 1 0 0x01000100
    (Memory.mk [(0, 0), (1, 0x01000100)]).read s.pc.toNat = s.program.read s.pc.toNat ∧
      Memory.mk [(0, 0), (1, 0x01000100)] ≠ s.program := by decide

theorem test_witness_StepKeepsInvariant :
    (at8 1 0 0 0 0 0 4 1 0x04000001).Inv ∧ ∃ t, step (at8 1 0 0 0 0 0 4 1 0x04000001) = .next t :=
  ⟨by decide, _, rfl⟩

theorem test_witness_BootLoadsWordsFromAddressZero :
    ({ Config.default with capacity := 1 } : Config).wf ∧
      [(0x09000000 : InstrWord)].length ≤ ({ Config.default with capacity := 1 } : Config).capacity := by decide

theorem test_witness_NoCycleChangesProgramOrParameters :
    (∃ t, step (at8 0 0 0 0 0 0 0 0 0x0A000300) = .next t) ∧ (∃ t, exec (.jump 3) (at8 0 0 0 0 0 0 0 0 0) = .next t) ∧
      SameParameters (at8 1 2 3 4 5 6 7 1 0) { at8 1 2 3 4 5 6 7 1 0 with regs := ⟨9, 9, 9, 9, 9, 9, 9, 9⟩, status := .quit } :=
  ⟨⟨_, rfl⟩, ⟨_, rfl⟩, by decide⟩

/-- L2.7: an entry offset beyond the capacity. -/
theorem test_witness_ResetClearsEverySlotButPointer :
    (withCapacity (at8 0 0 0 0 0 0 0 0 0) 16).config.capacity ≤ (20 : Word).toNat := by decide

theorem test_witness_VerdictPolicyDoesNotTouchTheMachine :
    ({ at8 0 0 0 0 0 0 0 0 0 with status := .quit } : State).status = .quit ∧
    (let s : State := { (at8 0 0 0 0 0 0 0 0 0).withOob true with status := .outOfBounds }
     s.status = .outOfBounds ∧ s.config.oobIsError = true) ∧
    (let s : State := { (at8 0 0 0 0 0 0 0 0 0).withOob false with status := .outOfBounds }
     s.status = .outOfBounds ∧ s.config.oobIsError = false) := by decide

theorem test_witness_PlacedWordIsRunNext :
    decode (tableWord 32 0x0200012C) = .instr (.addImm 0 300) ∧ decode (tableWord 8 0x100) = .instr .nop := by decide

/-- The register-byte clause of the eight ALU-class statements, at the first byte out of range. -/
theorem test_witness_bad_register_byte : 7 < (8 : Byte).toNat := by decide

theorem test_witness_NopAdvancesAndKeepsOrClearsFlag :
    (at8 0 0 0 0 0 0 0 1 0).config.nopZf = .preserve ∧
    (withPolicies (at8 0 0 0 0 0 0 0 1 0) .clear .fault).config.nopZf = .clear ∧ byte0 0x00ABCDEF = 0 := by decide

theorem test_witness_PointerAndFlagAsSources :
    (Slot.x5 ≠ .x6 ∧ Slot.x5 ≠ .x7) ∧ (at8 0 0 0 0 0 0 3 0 0).zf = 0 ∧ (at8 0 0 0 0 0 0 3 1 0).zf = 1 := by decide

theorem test_witness_QuitEndsTheRunInPlace : byte0 0x09FFFFFF = 9 := by decide

theorem test_witness_JumpStoresTarget :
    let s := withCapacity (at8 0 0 0 0 0 0 0 0 0) 16
    s.status = .running ∧ s.config.capacity ≤ (16 : Word).toNat := by decide

theorem test_witness_JumpIfZeroTestsFlagRegister :
    (at8 0 0 0 0 0 0 2 2 0).zf ≠ 0 ∧ (at8 0 0 0 0 0 0 2 0 0).zf = 0 := by decide

theorem test_witness_ControlWritesNoGeneralRegister :
    Instr.quit = .quit ∧ (∃ imm, Instr.jump 65535 = .jump imm) ∧ (∃ imm, Instr.jumpIfZero 0 = .jumpIfZero imm) ∧
      byte0 0x09FFFFFF = Instr.quit.opcode ∧ byte0 0x0A090900 = (Instr.jump 0).opcode ∧
      byte0 0x0BFFFFFF = (Instr.jumpIfZero 0).opcode :=
  ⟨rfl, ⟨_, rfl⟩, ⟨_, rfl⟩, by decide, by decide, by decide⟩

theorem test_witness_OnlyJumpsAndSlotSixRedirect :
    decode 0x0AFFFF00 = .instr (.jump 65535) ∧
    (decode 0x0B000400 = .instr (.jumpIfZero 4) ∧ (at8 0 0 0 0 0 0 2 1 0).zf ≠ 0) ∧
    ∃ t, (at8 40 0 0 0 0 0 3 0 0).status = .running ∧ exec (.move 6 0) (at8 40 0 0 0 0 0 3 0 0) = .next t ∧
      t.status = .running ∧ t.pc ≠ (at8 40 0 0 0 0 0 3 0 0).pc + 1 :=
  ⟨by decide, by decide, _, rfl, rfl, by decide, by decide⟩

theorem test_witness_SlotsOutsideWriteTableAreKept :
    ∃ t, exec (.addReg 0 1) (at8 0 0 0 0 0 0 3 0 0) = .next t ∧ Slot.x1 ≠ .x6 ∧ Slot.x1 ≠ .x7 ∧
      (Instr.addReg 0 1).dest ≠ some .x1 ∧ Instr.nop.isAlu = false ∧ (at8 0 0 0 0 0 0 3 0 0).config.nopZf = .preserve :=
  ⟨_, rfl, by decide, by decide, by decide, by decide, by decide⟩

/-- Destination slot 7 with a result of 1 and slot 6 with a result of 0: a flag of 0 and a flag of 1 (R86, R87). -/
theorem test_witness_ZeroFlagFollowsStoredDestination :
    (Instr.move 7 0).isAlu = true ∧ (Instr.move 7 0).wellFormed = true ∧
    (Instr.move 7 0).secondOperand (at8 1 0 0 0 0 0 3 1 0) = some 1 ∧
    seen (exec (.move 7 0) (at8 1 0 0 0 0 0 3 1 0)) = want 1 0 0 0 0 0 4 0 .running ∧
    seen (exec (.subReg 6 6) (at8 0 0 0 0 0 0 20 0 0)) = want 0 0 0 0 0 0 1 1 .running ∧
    ∃ imm, Instr.jumpIfZero 65535 = .jumpIfZero imm := ⟨by decide, by decide, by decide, by decide, by decide, _, rfl⟩

theorem test_witness_ZeroFlagWriters :
    ∃ t, step (at8 0 0 0 0 0 0 3 0 0x08000700) = .next t ∧ t.zf ≠ (at8 0 0 0 0 0 0 3 0 0x08000700).zf :=
  ⟨_, rfl, by decide⟩

theorem test_witness_DigitRunLexesModulo65536 : ∀ x ∈ (0 : Nat) :: [7, 0, 9, 0, 0], x ≤ 9 := by decide

theorem test_witness_AssembleOfProgramText :
    ∀ i ∈ [Instr.addReg 7 7, .jumpIfZero 65535, .quit], i.wellFormed = true := by decide

end Sys2Proof.Tests
end

/-! ### Program and parameters over a cycle and over a reset (10_state.md R29) -/

namespace Sys2Proof.Machine

theorem sameParameters_refl (s : State) : SameParameters s s := ⟨rfl, rfl⟩

theorem sameParameters_stop (s : State) (e : Event) : SameParameters s (s.stop e) :=
  ⟨s.stop_program e, s.stop_config e⟩

theorem sameParameters_advance (s : State) : SameParameters s s.advance :=
  ⟨s.advance_program, s.advance_config⟩

theorem sameParameters_jumpTo (s : State) (t : Word) : SameParameters s (s.jumpTo t) :=
  ⟨s.jumpTo_program t, s.jumpTo_config t⟩

theorem sameParameters_clearZf_advance (s : State) : SameParameters s s.clearZf.advance := by
  simp [SameParameters]

/-- An outcome known to be the next state `u` has no other next state, so what is shown of `u` holds of it. -/
theorem sameParameters_of_next {o : Host.Outcome State Fault Refusal} {s t u : State} (h : o = .next t)
    (hu : o = .next u) (hs : SameParameters s u) : SameParameters s t := by
  obtain rfl : u = t := Host.Outcome.next.inj (hu.symm.trans h)
  exact hs

theorem exec_sameParameters {i : Instr} {s t : State} (h : exec i s = .next t) : SameParameters s t := by
  rcases exec_cases i s with ⟨op, d, v2, -, -, alu⟩ | ⟨-, -, bad⟩ | ⟨-, -, keep⟩ | ⟨-, -, clear⟩ |
    ⟨-, quit⟩ | ⟨a, -, taken⟩ | ⟨-, -, -, untaken⟩
  · exact sameParameters_of_next h alu (aluCycle_effect op d v2 s).parameters
  · exact sameParameters_of_next h bad (sameParameters_stop s _)
  · exact sameParameters_of_next h keep (sameParameters_advance s)
  · exact sameParameters_of_next h clear (sameParameters_clearZf_advance s)
  · exact sameParameters_of_next h quit (sameParameters_stop s _)
  · exact sameParameters_of_next h taken (sameParameters_jumpTo s a)
  · exact sameParameters_of_next h untaken (sameParameters_advance s)

/-- Both policies for an opcode byte above 11 (60_exceptions.md R143, R147). -/
theorem execUnrecognised_sameParameters {s t : State} (h : execUnrecognised s = .next t) : SameParameters s t := by
  unfold execUnrecognised at h
  split at h
  case h_1 => exact sameParameters_of_next h rfl (sameParameters_stop s _)
  case h_2 => exact sameParameters_of_next h rfl (sameParameters_clearZf_advance s)

theorem execDecoded_sameParameters {d : Decoded} {s t : State} (h : execDecoded d s = .next t) :
    SameParameters s t := by
  cases d with
  | instr i => exact exec_sameParameters h
  | badRegister => exact sameParameters_of_next h rfl (sameParameters_stop s _)
  | unrecognised b => exact execUnrecognised_sameParameters h

theorem step_sameParameters {s t : State} (h : step s = .next t) : SameParameters s t := by
  rcases step_cases s with ⟨-, ended⟩ | ⟨-, -, outside⟩ | ⟨-, -, -, noWord⟩ | ⟨w, -, -, -, decoded⟩
  · exact sameParameters_of_next h ended (sameParameters_refl s)
  · exact sameParameters_of_next h outside (sameParameters_stop s _)
  · exact nomatch noWord.symm.trans h
  · exact execDecoded_sameParameters (decoded.symm.trans h)

theorem clockEdge_reset (s : State) (entry : Word) :
    clockEdge { rst := true, entry := entry } s = .next (s.resetTo entry) := rfl

/-- A reset takes nothing from the state before it but the program and the parameters: the slots and the status are those
of 10_state.md R28. -/
theorem State.resetTo_eq_of_sameParameters {s s' : State} (h : SameParameters s s') (entry : Word) :
    s.resetTo entry = s'.resetTo entry := by
  obtain ⟨hprogram, hconfig⟩ := h
  exact State.ext_read (fun _ => rfl) rfl hprogram.symm hconfig.symm

/-- Settles O20: the case lemmas of the step and of the instructions leave only operations that keep the program and the
parameters, and a reset overwrites everything else. -/
theorem noCycleChangesProgramOrParameters : Obligations.NoCycleChangesProgramOrParameters := by
  refine ⟨fun _ _ h => step_sameParameters h, fun _ _ _ h => exec_sameParameters h, fun s s' entry h => ?_⟩
  rw [clockEdge_reset, clockEdge_reset, State.resetTo_eq_of_sameParameters h]

end Sys2Proof.Machine

/-! ### The operands of a decoded instruction as fields of its word (30_encoding.md R51 to R54, R57) -/

namespace Sys2Proof

/-- The operands of the instruction are the bytes of the word that its format names (30_encoding.md R51 to R54). -/
def Instr.OperandsIn (w : InstrWord) : Instr → Prop
  | .nop | .quit => True
  | .addReg rd rs | .subReg rd rs | .xorReg rd rs | .orReg rd rs | .andReg rd rs | .move rd rs =>
    rd = byte1 w ∧ rs = byte2 w
  | .addImm rd imm | .subImm rd imm => rd = byte1 w ∧ imm = literal (byte2 w) (byte3 w)
  | .jump imm | .jumpIfZero imm => imm = literal (byte1 w) (byte2 w)

theorem eq_of_decodeRR {mk : Byte → Byte → Instr} {w : InstrWord} {i : Instr} (h : decodeRR mk w = .instr i) :
    i = mk (byte1 w) (byte2 w) := by
  unfold decodeRR at h
  split at h
  · exact nomatch h
  · exact (Decoded.instr.inj h).symm

theorem eq_of_decodeRI {mk : Byte → Word → Instr} {w : InstrWord} {i : Instr} (h : decodeRI mk w = .instr i) :
    i = mk (byte1 w) (literal (byte2 w) (byte3 w)) := by
  unfold decodeRI at h
  split at h
  · exact nomatch h
  · exact (Decoded.instr.inj h).symm

theorem eq_of_decodeL {mk : Word → Instr} {w : InstrWord} {i : Instr} (h : decodeL mk w = .instr i) :
    i = mk (literal (byte1 w) (byte2 w)) :=
  (Decoded.instr.inj h).symm

/-- One case per format, `h_n` being opcode `n - 1`: N, RR, RI and L, and no instruction above 11. -/
theorem operandsIn_of_decode {w : InstrWord} {i : Instr} (h : decode w = .instr i) : i.OperandsIn w := by
  unfold decode at h
  split at h
  case h_1 | h_10 => cases h; trivial
  case h_2 | h_4 | h_6 | h_7 | h_8 | h_9 => cases eq_of_decodeRR h; exact ⟨rfl, rfl⟩
  case h_3 | h_5 => cases eq_of_decodeRI h; exact ⟨rfl, rfl⟩
  case h_11 | h_12 => cases eq_of_decodeL h; rfl
  case h_13 => exact nomatch h

/-- Bytes 2 and 3 are `w[15:0]`, the literal field of format RI. -/
theorem literal_byte2_byte3_toNat (w : InstrWord) : (literal (byte2 w) (byte3 w)).toNat = w.toNat % 65536 := by
  rw [literal_toNat, byte2_toNat, byte3_toNat]; omega

/-- Bytes 1 and 2 are `w[23:8]`, the literal field of format L. -/
theorem literal_byte1_byte2_toNat (w : InstrWord) :
    (literal (byte1 w) (byte2 w)).toNat = w.toNat / 256 % 65536 := by
  rw [literal_toNat, byte1_toNat, byte2_toNat]; omega

/-- Settles O7: a decoded literal is the pair of bytes its format names, and that pair is the field as a number. -/
theorem literalIsTheFieldAsItStands : Obligations.LiteralIsTheFieldAsItStands := by
  intro w rd imm
  constructor
  · rintro (add | sub)
    · obtain ⟨-, rfl⟩ := operandsIn_of_decode add
      exact literal_byte2_byte3_toNat w
    · obtain ⟨-, rfl⟩ := operandsIn_of_decode sub
      exact literal_byte2_byte3_toNat w
  · rintro (jump | jumpIfZero)
    · obtain rfl := operandsIn_of_decode jump
      exact literal_byte1_byte2_toNat w
    · obtain rfl := operandsIn_of_decode jumpIfZero
      exact literal_byte1_byte2_toNat w

end Sys2Proof

/-! ### The decoder: an equation per opcode and per format (30_encoding.md R51 to R54, R60 to R62) -/

namespace Sys2Proof

theorem ofNat_toNat_self {n : Nat} (v : BitVec n) : BitVec.ofNat n v.toNat = v := by simp

section
variable {w : InstrWord}

theorem decode_nop (h : (byte0 w).toNat = 0) : decode w = .instr .nop := by simp [decode, h]
theorem decode_addReg (h : (byte0 w).toNat = 1) : decode w = decodeRR .addReg w := by simp [decode, h]
theorem decode_addImm (h : (byte0 w).toNat = 2) : decode w = decodeRI .addImm w := by simp [decode, h]
theorem decode_subReg (h : (byte0 w).toNat = 3) : decode w = decodeRR .subReg w := by simp [decode, h]
theorem decode_subImm (h : (byte0 w).toNat = 4) : decode w = decodeRI .subImm w := by simp [decode, h]
theorem decode_xorReg (h : (byte0 w).toNat = 5) : decode w = decodeRR .xorReg w := by simp [decode, h]
theorem decode_orReg (h : (byte0 w).toNat = 6) : decode w = decodeRR .orReg w := by simp [decode, h]
theorem decode_andReg (h : (byte0 w).toNat = 7) : decode w = decodeRR .andReg w := by simp [decode, h]
theorem decode_move (h : (byte0 w).toNat = 8) : decode w = decodeRR .move w := by simp [decode, h]
theorem decode_quit (h : (byte0 w).toNat = 9) : decode w = .instr .quit := by simp [decode, h]
theorem decode_jump (h : (byte0 w).toNat = 10) : decode w = decodeL .jump w := by simp [decode, h]
theorem decode_jumpIfZero (h : (byte0 w).toNat = 11) : decode w = decodeL .jumpIfZero w := by simp [decode, h]

theorem decodeRR_eq_instr_iff {mk : Byte → Byte → Instr} {i : Instr} :
    decodeRR mk w = .instr i ↔ (regByteOk (byte1 w) ∧ regByteOk (byte2 w)) ∧ i = mk (byte1 w) (byte2 w) := by
  unfold decodeRR
  split
  case isTrue bad => simp only [reduceCtorEq, false_iff, not_and]; omega
  case isFalse good =>
    have ok : regByteOk (byte1 w) ∧ regByteOk (byte2 w) := by omega
    simp only [ok, and_self, true_and, Decoded.instr.injEq, eq_comm]

theorem decodeRI_eq_instr_iff {mk : Byte → Word → Instr} {i : Instr} :
    decodeRI mk w = .instr i ↔ regByteOk (byte1 w) ∧ i = mk (byte1 w) (literal (byte2 w) (byte3 w)) := by
  unfold decodeRI
  split
  case isTrue bad => simp only [reduceCtorEq, false_iff, not_and]; omega
  case isFalse good => simp only [Nat.le_of_not_lt good, true_and, Decoded.instr.injEq, eq_comm]

theorem decodeRR_eq_badRegister_iff {mk : Byte → Byte → Instr} :
    decodeRR mk w = .badRegister ↔ 7 < (byte1 w).toNat ∨ 7 < (byte2 w).toNat := by
  unfold decodeRR; split <;> simp_all

theorem decodeRI_eq_badRegister_iff {mk : Byte → Word → Instr} :
    decodeRI mk w = .badRegister ↔ 7 < (byte1 w).toNat := by
  unfold decodeRI; split <;> simp_all

theorem decodeRR_ne_unrecognised {mk : Byte → Byte → Instr} {b : Byte} : decodeRR mk w ≠ .unrecognised b := by
  unfold decodeRR; split <;> exact nofun

theorem decodeRI_ne_unrecognised {mk : Byte → Word → Instr} {b : Byte} : decodeRI mk w ≠ .unrecognised b := by
  unfold decodeRI; split <;> exact nofun

/-! ### What a word that decodes to an instruction says of it -/

/-- The instruction is selected by byte 0 alone (30_encoding.md R60). -/
theorem opcode_of_decode {i : Instr} (h : decode w = .instr i) : i.opcode = byte0 w := by
  unfold decode at h
  split at h
  case h_1 hop | h_10 hop => cases h; exact BitVec.eq_of_toNat_eq hop.symm
  case h_2 hop | h_4 hop | h_6 hop | h_7 hop | h_8 hop | h_9 hop =>
    cases eq_of_decodeRR h; exact BitVec.eq_of_toNat_eq hop.symm
  case h_3 hop | h_5 hop => cases eq_of_decodeRI h; exact BitVec.eq_of_toNat_eq hop.symm
  case h_11 hop | h_12 hop => cases eq_of_decodeL h; exact BitVec.eq_of_toNat_eq hop.symm
  case h_13 => exact nomatch h

/-- The decoder hands out no register byte above 7 (30_encoding.md R58, R61). -/
theorem wellFormed_of_decode {i : Instr} (h : decode w = .instr i) : i.wellFormed = true := by
  unfold decode at h
  split at h
  case h_1 | h_10 => cases h; rfl
  case h_2 | h_4 | h_6 | h_7 | h_8 | h_9 =>
    obtain ⟨⟨hrd, hrs⟩, rfl⟩ := decodeRR_eq_instr_iff.1 h
    simp [Instr.wellFormed, hrd, hrs]
  case h_3 | h_5 =>
    obtain ⟨hrd, rfl⟩ := decodeRI_eq_instr_iff.1 h
    simp [Instr.wellFormed, hrd]
  case h_11 | h_12 => cases eq_of_decodeL h; rfl
  case h_13 => exact nomatch h

/-- The words that decode to BadRegister: an opcode of formats RR and RI with a bad byte where the format has a
register (30_encoding.md R52, R53, R58, R61). -/
theorem decode_eq_badRegister_iff :
    decode w = .badRegister ↔
      (1 ≤ (byte0 w).toNat ∧ (byte0 w).toNat ≤ 8) ∧
        (7 < (byte1 w).toNat ∨ (byte0 w).toNat ≠ 2 ∧ (byte0 w).toNat ≠ 4 ∧ 7 < (byte2 w).toNat) := by
  unfold decode
  split
  case h_2 | h_4 | h_6 | h_7 | h_8 | h_9 => rw [decodeRR_eq_badRegister_iff]; omega
  case h_3 | h_5 => rw [decodeRI_eq_badRegister_iff]; omega
  case h_1 | h_10 | h_11 | h_12 => simp only [decodeL, reduceCtorEq, false_iff]; omega
  case h_13 => grind

/-- The unrecognised words are those with an opcode byte above 11 (30_encoding.md R62). -/
theorem opcode_gt_of_decode {b : Byte} (h : decode w = .unrecognised b) : 11 < (byte0 w).toNat := by
  unfold decode at h
  split at h
  case h_1 | h_10 | h_11 | h_12 => exact nomatch h
  case h_2 | h_4 | h_6 | h_7 | h_8 | h_9 => exact absurd h decodeRR_ne_unrecognised
  case h_3 | h_5 => exact absurd h decodeRI_ne_unrecognised
  case h_13 => grind

end

end Sys2Proof

/-! ### The decoder against the encoder and the fields of the word (30_encoding.md R48, R49, R58, R61) -/

namespace Sys2Proof

@[simp] theorem byte0_encode (i : Instr) : byte0 (encode i) = i.opcode := by
  cases i <;> exact byte0_packBytes ..

/-- The fields of format RR come back from the canonical word (30_encoding.md R52). -/
theorem decodeRR_encodeRR (mk : Byte → Byte → Instr) (op rd rs : Byte) :
    decodeRR mk (encodeRR op rd rs) =
      if decide (regByteOk rd) && decide (regByteOk rs) then .instr (mk rd rs) else .badRegister := by
  by_cases hrd : regByteOk rd <;> by_cases hrs : regByteOk rs <;> simp_all [decodeRR, encodeRR]

/-- The fields of format RI come back from the canonical word (30_encoding.md R53). -/
theorem decodeRI_encodeRI (mk : Byte → Word → Instr) (op rd : Byte) (imm : Word) :
    decodeRI mk (encodeRI op rd imm) = if decide (regByteOk rd) then .instr (mk rd imm) else .badRegister := by
  by_cases hrd : regByteOk rd <;> simp_all [decodeRI, encodeRI]

/-- The field of format L comes back from the canonical word (30_encoding.md R54). -/
theorem decodeL_encodeL (mk : Word → Instr) (op : Byte) (imm : Word) :
    decodeL mk (encodeL op imm) = .instr (mk imm) := by
  simp [decodeL, encodeL]

/-- Settles O2: byte 0 of the canonical word selects the instruction's own format, and that format reads its operand
bytes back. -/
theorem decodeOfEncode : Obligations.DecodeOfEncode := by
  intro i
  have hop : (byte0 (encode i)).toNat = i.opcode.toNat := congrArg BitVec.toNat (byte0_encode i)
  cases i with
  | nop => exact decode_nop hop
  | addReg rd rs => exact (decode_addReg hop).trans (decodeRR_encodeRR ..)
  | addImm rd imm => exact (decode_addImm hop).trans (decodeRI_encodeRI ..)
  | subReg rd rs => exact (decode_subReg hop).trans (decodeRR_encodeRR ..)
  | subImm rd imm => exact (decode_subImm hop).trans (decodeRI_encodeRI ..)
  | xorReg rd rs => exact (decode_xorReg hop).trans (decodeRR_encodeRR ..)
  | orReg rd rs => exact (decode_orReg hop).trans (decodeRR_encodeRR ..)
  | andReg rd rs => exact (decode_andReg hop).trans (decodeRR_encodeRR ..)
  | move rd rs => exact (decode_move hop).trans (decodeRR_encodeRR ..)
  | quit => exact decode_quit hop
  | jump imm => exact (decode_jump hop).trans (decodeL_encodeL ..)
  | jumpIfZero imm => exact (decode_jumpIfZero hop).trans (decodeL_encodeL ..)

/-- Settles O5: byte 0 is the opcode, the operands are the bytes of the format, and a literal has the two bytes it
was read from. -/
theorem encodeOfDecodeIsCanonicalWord : Obligations.EncodeOfDecodeIsCanonicalWord := by
  intro w i h
  refine ⟨wellFormed_of_decode h, ?_⟩
  have hop := opcode_of_decode h
  have operands := operandsIn_of_decode h
  cases i with
  | nop | quit => exact congrArg encodeN hop
  | addReg rd rs | subReg rd rs | xorReg rd rs | orReg rd rs | andReg rd rs | move rd rs =>
    obtain ⟨rfl, rfl⟩ := operands
    exact congrArg (packBytes · (byte1 w) (byte2 w) 0) hop
  | addImm rd imm | subImm rd imm =>
    obtain ⟨rfl, rfl⟩ := operands
    simp [encode, encodeRI, hop, Instr.format, packBytes_bytes]
  | jump imm | jumpIfZero imm =>
    obtain rfl := operands
    simp [encode, encodeL, hop, Instr.format]

/-! ### The fields of a word as numbers -/

theorem byte1_eq_ofNat (w : InstrWord) : byte1 w = BitVec.ofNat 8 (w.toNat / 65536 % 256) := by
  rw [← byte1_toNat, ofNat_toNat_self]

theorem byte2_eq_ofNat (w : InstrWord) : byte2 w = BitVec.ofNat 8 (w.toNat / 256 % 256) := by
  rw [← byte2_toNat, ofNat_toNat_self]

/-- The literal field of format RI as a number of 16 bits (30_encoding.md R53). -/
theorem literal_byte2_byte3_eq_ofNat (w : InstrWord) : literal (byte2 w) (byte3 w) = BitVec.ofNat 16 w.toNat :=
  BitVec.eq_of_toNat_eq ((literal_byte2_byte3_toNat w).trans (BitVec.toNat_ofNat _ 16).symm)

/-- The literal field of format L as a number of 16 bits (30_encoding.md R54). -/
theorem literal_byte1_byte2_eq_ofNat (w : InstrWord) :
    literal (byte1 w) (byte2 w) = BitVec.ofNat 16 (w.toNat / 256) :=
  BitVec.eq_of_toNat_eq ((literal_byte1_byte2_toNat w).trans (BitVec.toNat_ofNat _ 16).symm)

theorem decodeRR_eq_fields (mk : Byte → Byte → Instr) (w : InstrWord) :
    decodeRR mk w =
      if w.toNat / 65536 % 256 ≤ 7 ∧ w.toNat / 256 % 256 ≤ 7 then
        .instr (mk (BitVec.ofNat 8 (w.toNat / 65536 % 256)) (BitVec.ofNat 8 (w.toNat / 256 % 256)))
      else .badRegister := by
  rw [← byte1_eq_ofNat, ← byte2_eq_ofNat, ← byte1_toNat, ← byte2_toNat]
  split
  case isTrue ok => exact decodeRR_eq_instr_iff.2 ⟨ok, rfl⟩
  case isFalse bad => exact decodeRR_eq_badRegister_iff.2 (by omega)

theorem decodeRI_eq_fields (mk : Byte → Word → Instr) (w : InstrWord) :
    decodeRI mk w =
      if w.toNat / 65536 % 256 ≤ 7 then
        .instr (mk (BitVec.ofNat 8 (w.toNat / 65536 % 256)) (BitVec.ofNat 16 w.toNat))
      else .badRegister := by
  rw [← byte1_eq_ofNat, ← literal_byte2_byte3_eq_ofNat, ← byte1_toNat]
  split
  case isTrue ok => exact decodeRI_eq_instr_iff.2 ⟨ok, rfl⟩
  case isFalse bad => exact decodeRI_eq_badRegister_iff.2 (by omega)

theorem decodeL_eq_fields (mk : Word → Instr) (w : InstrWord) :
    decodeL mk w = .instr (mk (BitVec.ofNat 16 (w.toNat / 256))) := by
  rw [← literal_byte1_byte2_eq_ofNat, decodeL]

/-- Settles O3: the opcode is the word's highest byte, and each format's decoder reads its fields by number. -/
theorem decoderReadsWordFields : Obligations.DecoderReadsWordFields := by
  intro w
  simp only [← byte0_toNat]
  exact ⟨decode_nop,
    fun h => (decode_addReg h).trans (decodeRR_eq_fields ..),
    fun h => (decode_addImm h).trans (decodeRI_eq_fields ..),
    fun h => (decode_subReg h).trans (decodeRR_eq_fields ..),
    fun h => (decode_subImm h).trans (decodeRI_eq_fields ..),
    fun h => (decode_xorReg h).trans (decodeRR_eq_fields ..),
    fun h => (decode_orReg h).trans (decodeRR_eq_fields ..),
    fun h => (decode_andReg h).trans (decodeRR_eq_fields ..),
    fun h => (decode_move h).trans (decodeRR_eq_fields ..),
    decode_quit,
    fun h => (decode_jump h).trans (decodeL_eq_fields ..),
    fun h => (decode_jumpIfZero h).trans (decodeL_eq_fields ..),
    fun h => by rw [decode_of_opcode_gt h, ofNat_toNat_self]⟩

/-! ### The bytes a format does not use (30_encoding.md R49) -/

/-- Byte 3 matters to format RI alone. -/
theorem decode_congr {w w' : InstrWord} (h0 : byte0 w = byte0 w') (h1 : byte1 w = byte1 w')
    (h2 : byte2 w = byte2 w') (not_addImm : (byte0 w).toNat ≠ 2) (not_subImm : (byte0 w).toNat ≠ 4) : decode w = decode w' := by
  unfold decode
  rw [h0] at *
  split
  case h_3 hop => exact absurd hop not_addImm
  case h_5 hop => exact absurd hop not_subImm
  all_goals simp only [decodeRR, decodeL, h1, h2]

/-- Settles O4: byte 0 alone selects nop, quit and no instruction; byte 3 is the literal's in format RI and nobody's
elsewhere. -/
theorem unusedBytesAreIgnored : Obligations.UnusedBytesAreIgnored := by
  intro w w' h0
  refine ⟨?_, fun h1 h2 h2' h4 => decode_congr h0 h1 h2 (fun e => h2' (BitVec.eq_of_toNat_eq e))
    (fun e => h4 (BitVec.eq_of_toNat_eq e))⟩
  rintro (nop | quit | unrecognised)
  · rw [decode_nop (by simp [nop]), decode_nop (by simp [← h0, nop])]
  · rw [decode_quit (by simp [quit]), decode_quit (by simp [← h0, quit])]
  · rw [decode_of_opcode_gt unrecognised, decode_of_opcode_gt (h0 ▸ unrecognised), h0]

/-- Settles O1, by running the decoder on the thirteen words. -/
theorem decodeOfWrittenWords : Obligations.DecodeOfWrittenWords := by
  unfold Obligations.DecodeOfWrittenWords
  decide

end Sys2Proof

namespace Sys2Proof.Machine

/-- Settles O6: the two cases of slotOf, and the range checks of formats RR and RI on the fields of the word. -/
theorem registerByteNamesSlotOrFaults : Obligations.RegisterByteNamesSlotOrFaults := by
  refine ⟨fun b hb => ?_, fun b hb => slotOf_eq_none hb, fun mk w => ?_, fun mk w => ?_, fun s => rfl⟩
  · rcases slotOf_cases b with ⟨d, hd, rfl⟩ | ⟨hgt, -⟩
    · exact ⟨d, hd, rfl⟩
    · omega
  · simpa only [Nat.lt_succ_iff] using decodeRR_eq_fields mk w
  · rw [decodeRI_eq_badRegister_iff, byte1_toNat, Nat.lt_iff_add_one_le]

end Sys2Proof.Machine

/-! ### The ALU class, one instruction at a time (41_arithmetic.md, 42_bitwise.md, 43_move_nop.md) -/

namespace Sys2Proof.Machine

theorem alu_add_toNat (v1 v2 : Word) : (alu .add v1 v2).toNat = (v1.toNat + v2.toNat) % 65536 :=
  BitVec.toNat_add v1 v2

theorem alu_xor_toNat (v1 v2 : Word) : (alu .xor v1 v2).toNat = v1.toNat ^^^ v2.toNat := BitVec.toNat_xor v1 v2

theorem alu_or_toNat (v1 v2 : Word) : (alu .or v1 v2).toNat = v1.toNat ||| v2.toNat := BitVec.toNat_or v1 v2

theorem alu_and_toNat (v1 v2 : Word) : (alu .and v1 v2).toNat = v1.toNat &&& v2.toNat := BitVec.toNat_and v1 v2

theorem alu_pass_toNat (v1 v2 : Word) : (alu .pass v1 v2).toNat = v2.toNat := rfl

theorem alu_sub_eq_zero_iff (v1 v2 : Word) : alu .sub v1 v2 = 0 ↔ v1 = v2 := sub_eq_zero

theorem alu_and_eq_zero_iff (v1 v2 : Word) :
    alu .and v1 v2 = 0 ↔ ∀ k, k < 16 → ¬(v1.getLsbD k = true ∧ v2.getLsbD k = true) := by
  constructor
  · rintro h k - ⟨h1, h2⟩
    have bit : (v1 &&& v2).getLsbD k = (0 : Word).getLsbD k := congrArg (BitVec.getLsbD · k) h
    simp [h1, h2] at bit
  · intro h
    refine BitVec.eq_of_getLsbD_eq fun k hk => ?_
    simpa [alu] using h k hk

/-- Settles O25: the ALU-class cycle with the sum as its result. -/
theorem addRegSumsIntoFirstOperand : Obligations.AddRegSumsIntoFirstOperand :=
  ⟨fun d r s => ⟨_, _, execRR_slotByte .add d r s, alu_add_toNat .., aluCycle_effect ..⟩,
    fun _ _ s h => execRR_badRegister .add s h, encodeRR_toNat 1⟩

/-- Settles O26: the ALU-class cycle with the sum as its result. -/
theorem addImmSumsLiteralIntoOperand : Obligations.AddImmSumsLiteralIntoOperand :=
  ⟨fun d imm s => ⟨_, _, execRI_slotByte .add d imm s, alu_add_toNat .., aluCycle_effect ..⟩,
    fun _ imm s h => execRI_badRegister .add imm s h, encodeRI_toNat 2⟩

/-- Settles O27: the ALU-class cycle with the difference as its result, which is 0 exactly for equal operands. -/
theorem subRegSubtractsSecondFromFirst : Obligations.SubRegSubtractsSecondFromFirst :=
  ⟨fun d r s => ⟨_, _, execRR_slotByte .sub d r s, alu_sub_toNat .., aluCycle_effect ..,
      (aluCycle_effect ..).zf_eq_one_iff.trans (alu_sub_eq_zero_iff ..)⟩,
    fun _ _ s h => execRR_badRegister .sub s h, encodeRR_toNat 3⟩

/-- Settles O28: the ALU-class cycle with the difference as its result, which is 0 exactly for equal operands. -/
theorem subImmSubtractsLiteral : Obligations.SubImmSubtractsLiteral :=
  ⟨fun d imm s => ⟨_, _, execRI_slotByte .sub d imm s, alu_sub_toNat .., aluCycle_effect ..,
      (aluCycle_effect ..).zf_eq_one_iff.trans (alu_sub_eq_zero_iff ..)⟩,
    fun _ imm s h => execRI_badRegister .sub imm s h, encodeRI_toNat 4⟩

/-- Settles O29: the ALU-class cycle with the exclusive or as its result, which is 0 exactly for equal operands. -/
theorem xorCombinesBits : Obligations.XorCombinesBits :=
  ⟨fun d r s => ⟨_, _, execRR_slotByte .xor d r s, fun _ _ => BitVec.getLsbD_xor,
      aluCycle_effect .xor d (s.read r) s,
      (aluCycle_effect ..).zf_eq_one_iff.trans BitVec.xor_eq_zero_iff⟩,
    fun _ _ s h => execRR_badRegister .xor s h, encodeRR_toNat 5⟩

/-- Settles O30: the ALU-class cycle with the inclusive or as its result, 0 exactly when both operands are. -/
theorem orCombinesBits : Obligations.OrCombinesBits :=
  ⟨fun d r s => ⟨_, _, execRR_slotByte .or d r s, fun _ _ => BitVec.getLsbD_or,
      aluCycle_effect .or d (s.read r) s,
      (aluCycle_effect ..).zf_eq_one_iff.trans BitVec.or_eq_zero_iff⟩,
    fun _ _ s h => execRR_badRegister .or s h, encodeRR_toNat 6⟩

/-- Settles O31: the ALU-class cycle with the bitwise and as its result, 0 exactly when no bit is common. -/
theorem andCombinesBits : Obligations.AndCombinesBits :=
  ⟨fun d r s => ⟨_, _, execRR_slotByte .and d r s, fun _ _ => BitVec.getLsbD_and,
      aluCycle_effect .and d (s.read r) s,
      (aluCycle_effect ..).zf_eq_one_iff.trans (alu_and_eq_zero_iff ..)⟩,
    fun _ _ s h => execRR_badRegister .and s h, encodeRR_toNat 7⟩

/-- Settles O32: the ALU-class cycle with the second operand as its result. -/
theorem moveCopiesSecondIntoFirst : Obligations.MoveCopiesSecondIntoFirst :=
  ⟨fun d r s => ⟨_, execRR_slotByte .pass d r s, aluCycle_effect .pass d (s.read r) s,
      (aluCycle_effect .pass d (s.read r) s).zf_eq_one_iff⟩,
    fun _ _ s h => execRR_badRegister .pass s h, encodeRR_toNat 8⟩

/-- The flag of a move whose source holds 0 or 1 is that bit inverted (40_cycle.md R89). -/
theorem zf_of_bit_result {d : Slot} {r : Word} {s t : State} (h : AluEffect d r s t) (hr : r = 0 ∨ r = 1) :
    t.zf = 1 - r := by
  rw [h.flag]
  rcases hr with rfl | rfl <;> rfl

/-- Settles O34: both moves are the ALU-class cycle with the old slot 6 or slot 7 as its result. -/
theorem pointerAndFlagAsSources : Obligations.PointerAndFlagAsSources := by
  intro d s h6 h7
  have fromPointer := aluCycle_effect .pass d (s.read .x6) s
  have fromFlag := aluCycle_effect .pass d (s.read .x7) s
  exact ⟨⟨_, execRR_slotByte .pass d .x6 s, fromPointer.result h6 h7, by simpa [h6] using fromPointer.pointer⟩,
    fun hz => ⟨_, execRR_slotByte .pass d .x7 s, fromFlag.result h6 h7, zf_of_bit_result fromFlag hz⟩⟩

/-! ### Nop, quit and the jumps (43_move_nop.md R117, 44_control.md R126 to R128) -/

theorem exec_nop_preserve {s : State} (h : s.config.nopZf = .preserve) : exec .nop s = .next s.advance := by
  simp [exec, execNop, h]

theorem exec_nop_clear {s : State} (h : s.config.nopZf = .clear) : exec .nop s = .next s.clearZf.advance := by
  simp [exec, execNop, h]

theorem exec_jumpIfZero_taken {s : State} (imm : Word) (h : s.zf ≠ 0) :
    exec (.jumpIfZero imm) s = .next (s.jumpTo imm) :=
  if_pos (decide_eq_true h)

theorem exec_jumpIfZero_untaken {s : State} (imm : Word) (h : s.zf = 0) :
    exec (.jumpIfZero imm) s = .next s.advance := by
  simp [exec, execJumpIfZero, State.zfSet, h]

theorem pointerEffect_advance (s : State) : PointerEffect (s.pc + 1) s s.advance where
  pointer := s.advance_pc
  frame _ h := s.advance_read_of_ne h
  status := rfl
  parameters := sameParameters_advance s

theorem pointerEffect_jumpTo (s : State) (imm : Word) : PointerEffect imm s (s.jumpTo imm) where
  pointer := s.jumpTo_pc imm
  frame _ h := s.jumpTo_read_of_ne imm h
  status := rfl
  parameters := sameParameters_jumpTo s imm

@[simp] theorem State.advance_zf (s : State) : s.advance.zf = s.zf := s.advance_read_of_ne (by decide)

@[simp] theorem State.jumpTo_zf (s : State) (imm : Word) : (s.jumpTo imm).zf = s.zf :=
  s.jumpTo_read_of_ne imm (by decide)

@[simp] theorem State.clearZf_pc (s : State) : s.clearZf.pc = s.pc := s.clearZf_read_of_ne (by decide)

theorem clearZf_advance_pc (s : State) : s.clearZf.advance.pc = s.pc + 1 := by simp

theorem clearZf_advance_read_of_ne (s : State) {i : Slot} (h6 : i ≠ .x6) (h7 : i ≠ .x7) :
    s.clearZf.advance.read i = s.read i := by
  simp [h6, h7]

/-- Settles O33: the advance writes slot 6 alone, the cleared flag slot 7 besides. -/
theorem nopAdvancesAndKeepsOrClearsFlag : Obligations.NopAdvancesAndKeepsOrClearsFlag := by
  refine ⟨fun s h => ⟨_, exec_nop_preserve h, pointerEffect_advance s⟩, fun s h => ⟨_, exec_nop_clear h, ?_⟩,
    fun w h => decode_nop (congrArg BitVec.toNat h)⟩
  exact ⟨by simp, clearZf_advance_pc s, fun _ h6 h7 => clearZf_advance_read_of_ne s h6 h7, rfl,
    sameParameters_clearZf_advance s⟩

/-- Settles O35: the halt sets the status alone, and byte 0 alone selects it. -/
theorem quitEndsTheRunInPlace : Obligations.QuitEndsTheRunInPlace :=
  ⟨fun _ => rfl, fun _ => rfl, fun _ h => decode_quit (congrArg BitVec.toNat h), by decide⟩

/-- Settles O37: the two cases of the flag, each writing slot 6 alone. -/
theorem jumpIfZeroTestsFlagRegister : Obligations.JumpIfZeroTestsFlagRegister := fun imm s =>
  ⟨fun set => ⟨_, exec_jumpIfZero_taken imm set, pointerEffect_jumpTo s imm⟩,
    fun unset => ⟨_, exec_jumpIfZero_untaken imm unset, pointerEffect_advance s⟩, encodeL_toNat 11 imm⟩

/-- No word with a control opcode has a register byte to check (44_control.md R125). -/
theorem decode_ne_badRegister_of_control {w : InstrWord} (h : 9 ≤ (byte0 w).toNat) : decode w ≠ .badRegister := by
  rw [Ne, decode_eq_badRegister_iff]; omega

/-- Settles O38: the halt keeps every slot, and a jump writes slot 6 alone. -/
theorem controlWritesNoGeneralRegister : Obligations.ControlWritesNoGeneralRegister := by
  refine ⟨?_, fun w imm h => decode_ne_badRegister_of_control ?_⟩
  · rintro i s (rfl | ⟨imm, rfl⟩ | ⟨imm, rfl⟩)
    · exact ⟨_, rfl, fun _ _ => rfl, .inl ⟨rfl, rfl⟩⟩
    · exact ⟨_, rfl, (pointerEffect_jumpTo s imm).frame, .inr (.inl (by simp))⟩
    · by_cases hz : s.zf = 0
      · exact ⟨_, exec_jumpIfZero_untaken imm hz, (pointerEffect_advance s).frame,
          .inr (.inr (.inr ⟨⟨imm, rfl⟩, hz, by simp⟩))⟩
      · exact ⟨_, exec_jumpIfZero_taken imm hz, (pointerEffect_jumpTo s imm).frame,
          .inr (.inr (.inl ⟨by simp, hz⟩))⟩
  · rcases h with h | h | h <;> simp [h, Instr.opcode]

end Sys2Proof.Machine

/-! ### The step, a rule per case (40_cycle.md R75 to R80) -/

namespace Sys2Proof.Machine

section
variable {s : State}

theorem step_of_outOfRange (running : s.status = .running) (h : s.config.capacity ≤ s.pc.toNat) :
    step s = .next (s.stop .outOfBounds) := by
  simp [step_of_running running, cycle, State.inRange, h]

theorem step_of_fetch {w : InstrWord} (running : s.status = .running) (inRange : s.pc.toNat < s.config.capacity)
    (fetched : s.program.read s.pc.toNat = some w) : step s = execDecoded (decode w) s := by
  simp [step_of_running running, cycle, State.inRange, State.fetch, inRange, fetched]

theorem execUnrecognised_fault (h : s.config.unknownOpcode = .fault) :
    execUnrecognised s = .next (s.stop .illegalOpcode) := by
  simp [execUnrecognised, h]

theorem execUnrecognised_legacyNop (h : s.config.unknownOpcode = .legacyNop) :
    execUnrecognised s = .next s.clearZf.advance := by
  simp [execUnrecognised, h]

end

/-- Settles O8: the fetched word is dispatched as decoded, and nothing is added. -/
theorem stepRunsDecodedInstruction : Obligations.StepRunsDecodedInstruction := by
  intro s w i running inRange fetched h
  rw [step_of_fetch running inRange fetched, h, execDecoded]

/-- Settles O10: the range check comes before the fetch. -/
theorem outOfBoundsHaltsBeforeFetch : Obligations.OutOfBoundsHaltsBeforeFetch := fun _ => step_of_outOfRange

/-- Settles O12: the step looks at the status first. -/
theorem stoppedMachineIsUnchanged : Obligations.StoppedMachineIsUnchanged := fun _ => step_of_ended

/-- Settles O24: the placed word is in range and is the one fetched. -/
theorem placedWordIsRunNext : Obligations.PlacedWordIsRunNext := by
  intro s nbits w i h
  refine ⟨stepRunsDecodedInstruction _ (tableWord nbits w) i rfl ?_ (Memory.read_write_same ..) h, rfl⟩
  exact Nat.lt_of_lt_of_le (Nat.lt_succ_self _) (Nat.le_max_right ..)

/-- Settles O36: the jump writes slot 6 alone, and the range check of the next cycle sees its target. -/
theorem jumpStoresTarget : Obligations.JumpStoresTarget := fun imm s =>
  ⟨⟨_, rfl, pointerEffect_jumpTo s imm, fun running h => step_of_outOfRange running (by simpa using h)⟩,
    encodeL_toNat 10 imm⟩

/-- Settles O11: the decoder's two refusals, and the two policies for an unrecognised opcode. -/
theorem undecodableWordRaisesItsFault : Obligations.UndecodableWordRaisesItsFault := by
  intro s w running inRange fetched
  rw [step_of_fetch running inRange fetched]
  refine ⟨fun hop hfault => ?_, fun hop hlegacy => ?_, fun hlo hhi hbad => ?_⟩
  · rw [decode_of_opcode_gt hop]
    exact execUnrecognised_fault hfault
  · rw [decode_of_opcode_gt hop]
    exact ⟨_, execUnrecognised_legacyNop hlegacy, by simp, clearZf_advance_pc s,
      fun _ h6 h7 => clearZf_advance_read_of_ne s h6 h7, running, sameParameters_clearZf_advance s⟩
  · have badByte : 7 < (byte1 w).toNat ∨
        (byte0 w).toNat ≠ 2 ∧ (byte0 w).toNat ≠ 4 ∧ 7 < (byte2 w).toNat := by
      simpa [← BitVec.toNat_inj] using hbad
    rw [decode_eq_badRegister_iff.2 ⟨⟨hlo, hhi⟩, badByte⟩]
    rfl

/-! ### A next state always, and what a stopping step leaves (60_exceptions.md R145, R146) -/

theorem exec_next (i : Instr) (s : State) : ∃ t, exec i s = .next t := by
  rcases exec_cases i s with ⟨_, _, _, -, -, h⟩ | ⟨-, -, h⟩ | ⟨-, -, h⟩ | ⟨-, -, h⟩ | ⟨-, h⟩ |
    ⟨_, -, h⟩ | ⟨_, -, -, h⟩
  all_goals exact ⟨_, h⟩

/-- Settles O15: in every case of an instruction the outcome is a next state. -/
theorem everyInstructionAnswersNext : Obligations.EveryInstructionAnswersNext := exec_next

theorem execUnrecognised_next (s : State) : ∃ t, execUnrecognised s = .next t := by
  unfold execUnrecognised; split <;> exact ⟨_, rfl⟩

theorem execDecoded_next (d : Decoded) (s : State) : ∃ t, execDecoded d s = .next t := by
  cases d with
  | instr i => exact exec_next i s
  | badRegister => exact ⟨_, rfl⟩
  | unrecognised b => exact execUnrecognised_next s

theorem State.ProgramTotal.of_sameParameters {s t : State} (h : s.ProgramTotal) (same : SameParameters s t) :
    t.ProgramTotal := by
  obtain ⟨program, config⟩ := same
  rw [State.ProgramTotal, program, config]
  exact h

/-- Settles O14: a total program supplies the fetched word, and no step changes program or parameters. -/
theorem totalProgramAlwaysSteps : Obligations.TotalProgramAlwaysSteps := by
  intro s total
  have next : ∃ t, step s = .next t := by
    rcases step_cases s with ⟨-, h⟩ | ⟨-, -, h⟩ | ⟨-, inRange, missing, -⟩ | ⟨w, -, -, -, h⟩
    · exact ⟨_, h⟩
    · exact ⟨_, h⟩
    · exact absurd missing (Option.isSome_iff_ne_none.1 (total _ inRange))
    · exact h ▸ execDecoded_next (decode w) s
  obtain ⟨t, h⟩ := next
  exact ⟨t, h, total.of_sameParameters (step_sameParameters h)⟩

/-! ### The next states of an instruction and of a step, with what each says of the state before it -/

/-- The next states of an instruction: exec_cases read from the next state's side. -/
inductive ExecNext (i : Instr) (s : State) : State → Prop where
  | alu (op : AluOp) (d : Slot) (v2 : Word) (isAlu : i.isAlu = true) (dest : i.dest = some d) :
      ExecNext i s (aluCycle op d v2 s)
  | badRegister : ExecNext i s (s.stop .badRegister)
  | nopPreserve : ExecNext i s s.advance
  | nopClear (nop : i = .nop) (policy : s.config.nopZf = .clear) : ExecNext i s s.clearZf.advance
  | quit : ExecNext i s (s.stop .quit)
  | jump (imm : Word) (taken : i = .jump imm ∨ i = .jumpIfZero imm ∧ s.zf ≠ 0) : ExecNext i s (s.jumpTo imm)
  | jumpIfZeroUntaken : ExecNext i s s.advance

theorem execNext_of_exec {i : Instr} {s t : State} (h : exec i s = .next t) : ExecNext i s t := by
  rcases exec_cases i s with ⟨op, d, v2, isAlu, byte, e⟩ | ⟨-, -, e⟩ | ⟨-, -, e⟩ | ⟨nop, policy, e⟩ | ⟨-, e⟩ |
    ⟨imm, taken, e⟩ | ⟨_, -, -, e⟩
  all_goals cases h.symm.trans e
  · exact .alu op d v2 isAlu (by simp [Instr.dest, byte])
  · exact .badRegister
  · exact .nopPreserve
  · exact .nopClear nop policy
  · exact .quit
  · exact .jump imm taken
  · exact .jumpIfZeroUntaken

/-- The next states of a step: step_cases read from the next state's side, with the decoded word taken apart. -/
inductive StepNext (s : State) : State → Prop where
  | ended (h : s.Ended) : StepNext s s
  | outOfBounds : StepNext s (s.stop .outOfBounds)
  | instr (w : InstrWord) (i : Instr) (t : State) (running : s.status = .running)
      (fetched : s.program.read s.pc.toNat = some w) (decoded : decode w = .instr i) (next : exec i s = .next t) :
      StepNext s t
  | badRegister : StepNext s (s.stop .badRegister)
  | illegalOpcode : StepNext s (s.stop .illegalOpcode)
  | legacyNop (w : InstrWord) (b : Byte) (running : s.status = .running)
      (fetched : s.program.read s.pc.toNat = some w) (decoded : decode w = .unrecognised b)
      (policy : s.config.unknownOpcode = .legacyNop) : StepNext s s.clearZf.advance

theorem stepNext_of_step {s t : State} (h : step s = .next t) : StepNext s t := by
  rcases step_cases s with ⟨ended, e⟩ | ⟨-, -, e⟩ | ⟨-, -, -, e⟩ | ⟨w, running, -, fetched, e⟩
  · cases h.symm.trans e; exact .ended ended
  · cases h.symm.trans e; exact .outOfBounds
  · exact nomatch h.symm.trans e
  · rw [e] at h
    cases decoded : decode w with
    | instr i => rw [decoded] at h; exact .instr w i t running fetched decoded h
    | badRegister => rw [decoded] at h; cases h; exact .badRegister
    | unrecognised b =>
      rw [decoded, execDecoded] at h
      cases policy : s.config.unknownOpcode with
      | fault => cases h.symm.trans (execUnrecognised_fault policy); exact .illegalOpcode
      | legacyNop =>
        cases h.symm.trans (execUnrecognised_legacyNop policy)
        exact .legacyNop w b running fetched decoded policy

/-! ### A stopping step changes the status alone (60_exceptions.md R145, R146) -/

theorem exec_eq_or_status_eq {i : Instr} {s t : State} (h : exec i s = .next t) :
    t = { s with status := t.status } ∨ t.status = s.status := by
  cases execNext_of_exec h with
  | badRegister | quit => exact .inl rfl
  | alu op d v2 => exact .inr (aluCycle_effect op d v2 s).status
  | nopPreserve | nopClear | jump | jumpIfZeroUntaken => exact .inr rfl

/-- Settles O13: a next state that is not Running comes from a halt, a fault or a stopped state, for an instruction
that goes on keeps the status Running. -/
theorem haltsAndFaultsChangeOnlyStatus : Obligations.HaltsAndFaultsChangeOnlyStatus := by
  refine ⟨fun _ => rfl, outOfBoundsHaltsBeforeFetch, fun s t h stopped => ?_⟩
  cases stepNext_of_step h with
  | ended | outOfBounds | badRegister | illegalOpcode => rfl
  | instr w i _ running _ _ next =>
    exact (exec_eq_or_status_eq next).resolve_right fun same => stopped (same.trans running)
  | legacyNop w b running => exact absurd running stopped

/-! ### The writers of slot 7, and the invariant (10_state.md R20, R21) -/

/-- The instructions that write the zero-flag register in a state (10_state.md R20). -/
def WritesZf (i : Instr) (s : State) : Prop := i.isAlu = true ∨ (i = .nop ∧ s.config.nopZf = .clear)

theorem exec_zf {i : Instr} {s t : State} (h : exec i s = .next t) :
    t.zf = s.zf ∨ WritesZf i s ∧ (t.zf = 0 ∨ t.zf = 1) := by
  cases execNext_of_exec h with
  | alu op d v2 isAlu => exact .inr ⟨.inl isAlu, State.updateZf_zf _ d ▸ zeroFlag_zero_or_one _⟩
  | nopClear nop policy => exact .inr ⟨.inr ⟨nop, policy⟩, .inl (by simp)⟩
  | badRegister | quit | nopPreserve | jump | jumpIfZeroUntaken => simp

/-- The word at the instruction pointer writes the zero-flag register (10_state.md R20). -/
def WordWritesZf (s : State) : Prop :=
  ∃ w, s.program.read s.pc.toNat = some w ∧
    ((∃ i, decode w = .instr i ∧ WritesZf i s) ∨
      ((∃ op, decode w = .unrecognised op) ∧ s.config.unknownOpcode = .legacyNop))

theorem step_zf {s t : State} (h : step s = .next t) : t.zf = s.zf ∨ WordWritesZf s ∧ (t.zf = 0 ∨ t.zf = 1) := by
  cases stepNext_of_step h with
  | ended | outOfBounds | badRegister | illegalOpcode => exact .inl rfl
  | instr w i _ _ fetched decoded next =>
    exact (exec_zf next).imp_right fun ⟨writes, bit⟩ => ⟨⟨w, fetched, .inl ⟨i, decoded, writes⟩⟩, bit⟩
  | legacyNop w b _ fetched decoded policy =>
    exact .inr ⟨⟨w, fetched, .inr ⟨⟨b, decoded⟩, policy⟩⟩, .inl (by simp)⟩

/-- Settles O42: a step that changes slot 7 ran one of its writers. -/
theorem zeroFlagWriters : Obligations.ZeroFlagWriters := fun _ _ h changed =>
  ((step_zf h).resolve_left changed).1

/-- Settles O17: program and parameters are kept, and slot 7 is kept or written with 0 or 1. -/
theorem stepKeepsInvariant : Obligations.StepKeepsInvariant := by
  rintro s t ⟨canonical, config, inside, flag⟩ h
  have zf : t.zf = 0 ∨ t.zf = 1 := (step_zf h).elim (fun kept => kept ▸ flag) And.right
  obtain ⟨hprogram, hconfig⟩ := step_sameParameters h
  rw [State.Inv, hprogram, hconfig]
  exact ⟨canonical, config, inside, zf⟩

/-! ### Frames over all instructions (10_state.md R14, R15, 44_control.md R129) -/

theorem exec_read_of_ne {i : Instr} {s t : State} (h : exec i s = .next t) {j : Slot} (h6 : j ≠ .x6) (h7 : j ≠ .x7)
    (hdest : i.dest ≠ some j) : t.read j = s.read j := by
  cases execNext_of_exec h with
  | alu op d v2 _ dest => exact (aluCycle_effect op d v2 s).frame j (fun e => hdest (e ▸ dest)) h6 h7
  | nopClear => exact clearZf_advance_read_of_ne s h6 h7
  | badRegister | quit | nopPreserve | jump | jumpIfZeroUntaken => simp [h6]

/-- Settles O40: slot 7 changes only by one of its writers, and every other slot follows from the cases of exec. -/
theorem slotsOutsideWriteTableAreKept : Obligations.SlotsOutsideWriteTableAreKept := by
  intro i s t h
  refine ⟨exec_sameParameters h, fun _ h6 h7 hdest => exec_read_of_ne h h6 h7 hdest, fun notAlu nop => ?_⟩
  refine (exec_zf h).resolve_right ?_
  rintro ⟨alu | ⟨hnop, clear⟩, -⟩
  · simp [notAlu] at alu
  · simp [nop hnop] at clear

theorem exec_redirects {i : Instr} {s t : State} (h : exec i s = .next t) (goesOn : t.status = .running)
    (hpc : t.pc ≠ s.pc + 1) :
    (∃ imm, i = .jump imm) ∨ (∃ imm, i = .jumpIfZero imm ∧ s.zf ≠ 0) ∨ (i.isAlu = true ∧ i.dest = some .x6) := by
  cases execNext_of_exec h with
  | alu op d v2 isAlu dest =>
    refine .inr (.inr ⟨isAlu, dest.trans (congrArg some ?_)⟩)
    by_contra hd
    exact hpc (by rw [(aluCycle_effect op d v2 s).pointer, if_neg hd])
  | badRegister | quit => exact absurd (State.stop_status .. ▸ goesOn) (Event.status_ne_running _)
  | nopPreserve | jumpIfZeroUntaken => exact absurd s.advance_pc hpc
  | nopClear => exact absurd (clearZf_advance_pc s) hpc
  | jump imm taken => exact taken.imp (fun e => ⟨imm, e⟩) fun e => .inl ⟨imm, e⟩

/-- Settles O39: a decoded target is the word's field, and only a jump or a result in slot 6 moves the pointer
elsewhere than to the next address. -/
theorem onlyJumpsAndSlotSixRedirect : Obligations.OnlyJumpsAndSlotSixRedirect := by
  refine ⟨fun w imm s h => ⟨_, rfl, ?_⟩, fun w imm s h taken => ⟨_, exec_jumpIfZero_taken imm taken, ?_⟩,
    fun i s t _ h goesOn hpc => exec_redirects h goesOn hpc⟩
  · rw [State.jumpTo_pc]
    exact (literalIsTheFieldAsItStands w 0 imm).2 (.inl h)
  · rw [State.jumpTo_pc]
    exact (literalIsTheFieldAsItStands w 0 imm).2 (.inr h)

end Sys2Proof.Machine

/-! ### The ALU class by its operands (40_cycle.md R79 to R83) -/

namespace Sys2Proof.Machine

theorem exists_slotByte {b : Byte} (h : regByteOk b) : ∃ d, slotByte d = b := by
  rcases slotOf_cases b with ⟨d, -, rfl⟩ | ⟨hgt, -⟩
  · exact ⟨d, rfl⟩
  · omega

/-- `op` is the operation that R81 gives the instruction's opcode. -/
def Computes (i : Instr) (op : AluOp) : Prop :=
  ∀ v1 v2 : Word, (alu op v1 v2).toNat = aluNum i.opcode.toNat v1.toNat v2.toNat

/-- A well-formed instruction of the ALU class is the ALU-class cycle on its destination slot and its second operand
value, with the operation of its opcode. -/
theorem exec_of_alu {i : Instr} (s : State) (isAlu : i.isAlu = true) (wf : i.wellFormed = true) :
    ∃ op d v2, Computes i op ∧ i.destByte = some (slotByte d) ∧ i.secondOperand s = some v2 ∧
      exec i s = .next (aluCycle op d v2 s) := by
  cases i with
  | nop | quit | jump _ | jumpIfZero _ => exact nomatch isAlu
  | addReg rd rs | subReg rd rs | xorReg rd rs | orReg rd rs | andReg rd rs | move rd rs =>
    obtain ⟨hrd, hrs⟩ : regByteOk rd ∧ regByteOk rs := by simpa [Instr.wellFormed] using wf
    obtain ⟨d, rfl⟩ := exists_slotByte hrd
    obtain ⟨r, rfl⟩ := exists_slotByte hrs
    refine ⟨_, d, s.read r, fun v1 v2 => ?_, rfl, by simp [Instr.secondOperand], execRR_slotByte _ d r s⟩
    simp [Instr.opcode, aluNum, alu_add_toNat, alu_sub_toNat, alu_xor_toNat, alu_or_toNat, alu_and_toNat,
      alu_pass_toNat]
  | addImm rd imm | subImm rd imm =>
    obtain ⟨d, rfl⟩ := exists_slotByte (b := rd) (by simpa [Instr.wellFormed] using wf)
    refine ⟨_, d, imm, fun v1 v2 => ?_, rfl, rfl, execRI_slotByte _ d imm s⟩
    simp [Instr.opcode, aluNum, alu_add_toNat, alu_sub_toNat]

/-- Settles O41: the cycle's three writes, with the operation of the instruction's opcode; quit and the jumps are no
writers of slot 7. -/
theorem zeroFlagFollowsStoredDestination : Obligations.ZeroFlagFollowsStoredDestination := by
  constructor
  · intro i s isAlu wf
    obtain ⟨op, d, v2, computes, dest, operand, next⟩ := exec_of_alu s isAlu wf
    obtain ⟨flag, writes⟩ := aluCycle_eq_writes op d v2 s
    exact ⟨d, v2, alu op (s.read d) v2, _, by simp [Instr.dest, dest], operand, computes _ _, next, flag, writes⟩
  · rintro i s (rfl | ⟨imm, rfl⟩ | ⟨imm, rfl⟩)
    · exact ⟨_, rfl, rfl⟩
    · exact ⟨_, rfl, s.jumpTo_zf imm⟩
    · by_cases hz : s.zf = 0
      · exact ⟨_, exec_jumpIfZero_untaken imm hz, s.advance_zf⟩
      · exact ⟨_, exec_jumpIfZero_taken imm hz, s.jumpTo_zf imm⟩

/-! ### The closed form, a rule per case (40_cycle.md R85, 60_exceptions.md R148) -/

section
variable {s t : State} {w : InstrWord}

theorem closedForm_illegalOpcode (hop : 11 < (byte0 w).toNat) (policy : s.config.unknownOpcode = .fault) :
    closedForm s w = s.stop .illegalOpcode := by
  rw [byte0_toNat] at hop
  simp [closedForm, hop, policy, State.stop, Event.status]

theorem closedForm_quit (hop : (byte0 w).toNat = 9) : closedForm s w = s.stop .quit := by
  rw [byte0_toNat] at hop
  simp [closedForm, hop, State.stop, Event.status]

theorem closedForm_badRegister (h : decode w = .badRegister) : closedForm s w = s.stop .badRegister := by
  obtain ⟨⟨lo, hi⟩, bad⟩ := decode_eq_badRegister_iff.1 h
  simp only [byte0_toNat, byte1_toNat, byte2_toNat] at lo hi bad
  rw [closedForm, if_neg (by omega), if_neg (by omega), if_pos ⟨lo, hi, bad⟩, State.stop, Event.status]

/-- The next value of slot `k` in the closed form of the cycle of `w`. -/
def closedSlot (s : State) (w : InstrWord) (k : Nat) : Nat :=
  nextSlotNum s (byte0 w).toNat (byte1 w).toNat (byte2 w).toNat (byte3 w).toNat k

theorem closedForm_completes (recognised : 11 < (byte0 w).toNat → s.config.unknownOpcode ≠ .fault)
    (notQuit : (byte0 w).toNat ≠ 9) (good : decode w ≠ .badRegister) :
    closedForm s w = { s with regs := RegFile.ofNum (closedSlot s w) } := by
  rw [Ne, decode_eq_badRegister_iff] at good
  unfold closedSlot
  simp only [byte0_toNat, byte1_toNat, byte2_toNat, byte3_toNat] at recognised notQuit good ⊢
  rw [closedForm, if_neg (by simpa using recognised), if_neg notQuit,
    if_neg fun ⟨lo, hi, bad⟩ => good ⟨⟨lo, hi⟩, bad⟩]

/-- A state is that of the closed form when slots 7 and 6 and the others are the closed form's. -/
theorem eq_closedForm (recognised : 11 < (byte0 w).toNat → s.config.unknownOpcode ≠ .fault)
    (notQuit : (byte0 w).toNat ≠ 9) (good : decode w ≠ .badRegister)
    (flag : t.zf = BitVec.ofNat 16 (closedSlot s w 7)) (pointer : t.pc = BitVec.ofNat 16 (closedSlot s w 6))
    (others : ∀ j, j ≠ .x6 → j ≠ .x7 → t.read j = BitVec.ofNat 16 (closedSlot s w (slotByte j).toNat))
    (status : t.status = s.status) (parameters : SameParameters s t) : t = closedForm s w := by
  rw [closedForm_completes recognised notQuit good]
  refine State.ext_read (fun j => ?_) status parameters.1 parameters.2
  refine Eq.trans ?_ (RegFile.read_ofNum _ j).symm
  by_cases h6 : j = .x6
  · exact h6 ▸ pointer
  by_cases h7 : j = .x7
  · exact h7 ▸ flag
  exact others j h6 h7

theorem State.num_slotByte (s : State) (d : Slot) : s.regs.num (slotByte d).toNat = (s.read d).toNat :=
  s.regs.num_slotByte d

theorem add_one_eq_ofNat (v : Word) : v + 1 = BitVec.ofNat 16 ((v.toNat + 1) % 65536) := by
  rw [← ofNat_toNat_self (v + 1), BitVec.toNat_add]; rfl

theorem flag_eq_ofNat (r : Word) :
    (if r = 0 then (1 : Word) else 0) = BitVec.ofNat 16 (if r.toNat = 0 then 1 else 0) := by
  have zero : r.toNat = 0 ↔ r = 0 := BitVec.toNat_inj (y := 0)
  rw [if_congr zero rfl rfl]
  split <;> rfl

theorem slotByte_toNat_ne {i j : Slot} (h : i ≠ j) : (slotByte i).toNat ≠ (slotByte j).toNat :=
  fun e => h (slotByte_toNat_inj e)

/-- The result of the ALU class in the numbers of the word (40_cycle.md R79, R81). -/
def resultNum (s : State) (w : InstrWord) : Nat :=
  aluNum (byte0 w).toNat (s.regs.num (byte1 w).toNat)
    (if (byte0 w).toNat = 2 ∨ (byte0 w).toNat = 4 then (byte2 w).toNat * 256 + (byte3 w).toNat
    else s.regs.num (byte2 w).toNat)

/-- The word has an opcode of the ALU class (40_cycle.md R82). -/
abbrev AluOpcode (w : InstrWord) : Prop := 1 ≤ (byte0 w).toNat ∧ (byte0 w).toNat ≤ 8

/-- The word is a jump that is taken (44_control.md R129). -/
abbrev JumpTaken (s : State) (w : InstrWord) : Prop := (byte0 w).toNat = 10 ∨ (byte0 w).toNat = 11 ∧ s.zf ≠ 0

/-! #### Every slot but 6 and 7 -/

theorem closedSlot_result {d : Slot} (isAlu : AluOpcode w) (dest : byte1 w = slotByte d) (h6 : d ≠ .x6)
    (h7 : d ≠ .x7) : closedSlot s w (slotByte d).toNat = resultNum s w :=
  (if_neg (slotByte_toNat_ne h7)).trans ((if_neg (slotByte_toNat_ne h6)).trans
    (if_pos ⟨isAlu, congrArg BitVec.toNat dest.symm⟩))

theorem closedSlot_frame {j : Slot} (h : AluOpcode w → byte1 w ≠ slotByte j) (h6 : j ≠ .x6) (h7 : j ≠ .x7) :
    closedSlot s w (slotByte j).toNat = (s.read j).toNat :=
  (if_neg (slotByte_toNat_ne h7)).trans ((if_neg (slotByte_toNat_ne h6)).trans
    ((if_neg fun ⟨isAlu, e⟩ => h isAlu (BitVec.eq_of_toNat_eq e.symm)).trans (s.regs.num_slotByte j)))

/-! #### Slot 6 -/

theorem num_seven_ne_zero_iff : s.regs.num 7 ≠ 0 ↔ s.zf ≠ 0 :=
  not_congr (BitVec.toNat_inj (y := 0))

theorem closedSlot_six :
    closedSlot s w 6 = if JumpTaken s w then (byte1 w).toNat * 256 + (byte2 w).toNat
      else ((if AluOpcode w ∧ byte1 w = slotByte .x6 then resultNum s w else s.pc.toNat) + 1) % 65536 := by
  simp only [JumpTaken, ← num_seven_ne_zero_iff, ← BitVec.toNat_inj]
  rfl

theorem closedSlot_six_target (taken : JumpTaken s w) :
    closedSlot s w 6 = (byte1 w).toNat * 256 + (byte2 w).toNat := by
  rw [closedSlot_six, if_pos taken]

theorem closedSlot_six_result (isAlu : AluOpcode w) (dest : byte1 w = slotByte .x6) :
    closedSlot s w 6 = (resultNum s w + 1) % 65536 := by
  rw [closedSlot_six, if_neg (by omega), if_pos ⟨isAlu, dest⟩]

theorem closedSlot_six_advance (notDest : AluOpcode w → byte1 w ≠ slotByte .x6) (untaken : ¬JumpTaken s w) :
    closedSlot s w 6 = (s.pc.toNat + 1) % 65536 := by
  rw [closedSlot_six, if_neg untaken, if_neg fun ⟨isAlu, dest⟩ => notDest isAlu dest]

/-! #### Slot 7 -/

theorem closedSlot_seven_result (isAlu : AluOpcode w) :
    closedSlot s w 7 = if resultNum s w = 0 then 1 else 0 := by
  rw [closedSlot, nextSlotNum, if_pos rfl]
  exact if_pos isAlu

theorem closedSlot_seven_nop (hop : (byte0 w).toNat = 0) (policy : s.config.nopZf = .preserve) :
    closedSlot s w 7 = s.zf.toNat := by
  simp only [closedSlot, nextSlotNum, hop, policy]
  rfl

theorem closedSlot_seven_nop_clear (hop : (byte0 w).toNat = 0) (policy : s.config.nopZf = .clear) :
    closedSlot s w 7 = 0 := by
  simp [closedSlot, nextSlotNum, hop, policy]

theorem closedSlot_seven_jump (hop : (byte0 w).toNat = 10 ∨ (byte0 w).toNat = 11) :
    closedSlot s w 7 = s.zf.toNat := by
  rw [closedSlot, nextSlotNum, if_pos rfl, if_neg (by omega), if_neg (by omega)]
  exact if_pos hop

theorem closedSlot_seven_unrecognised (hop : 11 < (byte0 w).toNat) : closedSlot s w 7 = 0 := by
  rw [closedSlot, nextSlotNum, if_pos rfl, if_neg (by omega), if_neg (by omega)]
  exact if_neg (by omega)

/-! ### The closed form of each decoded word (70_reset_and_hazards.md R169) -/

theorem secondOperand_toNat {i : Instr} {v2 : Word} (operands : i.OperandsIn w) (h : i.secondOperand s = some v2) :
    v2.toNat = if i.opcode.toNat = 2 ∨ i.opcode.toNat = 4 then (byte2 w).toNat * 256 + (byte3 w).toNat
      else s.regs.num (byte2 w).toNat := by
  cases i with
  | nop | quit | jump _ | jumpIfZero _ => exact nomatch h
  | addReg rd rs | subReg rd rs | xorReg rd rs | orReg rd rs | andReg rd rs | move rd rs =>
    obtain ⟨-, rfl⟩ := operands
    obtain ⟨r, hr, rfl⟩ := Option.map_eq_some_iff.1 h
    rcases slotOf_cases (byte2 w) with ⟨r', hr', hbyte⟩ | ⟨-, noSlot⟩
    · cases hr.symm.trans hr'
      rw [hbyte]
      exact (s.regs.num_slotByte r).symm
    · exact nomatch noSlot.symm.trans hr
  | addImm rd imm | subImm rd imm =>
    obtain ⟨-, rfl⟩ := operands
    cases h
    exact literal_toNat ..

theorem destByte_of_operandsIn {i : Instr} {b : Byte} (operands : i.OperandsIn w) (h : i.destByte = some b) :
    byte1 w = b := by
  cases i with
  | nop | quit | jump _ | jumpIfZero _ => exact nomatch h
  | addReg | subReg | xorReg | orReg | andReg | move | addImm | subImm =>
    obtain ⟨rfl, -⟩ := operands
    exact Option.some.inj h

theorem opcode_of_alu {i : Instr} (isAlu : i.isAlu = true) : 1 ≤ i.opcode.toNat ∧ i.opcode.toNat ≤ 8 := by
  cases i with
  | nop | quit | jump _ | jumpIfZero _ => exact nomatch isAlu
  | addReg | subReg | xorReg | orReg | andReg | move | addImm | subImm => simp [Instr.opcode]

/-- The ordered cycle of the ALU class is the closed form: the flag wins in slot 7, the incremented result in
slot 6. -/
theorem aluCycle_eq_closedForm {i : Instr} {op : AluOp} {d : Slot} {v2 : Word} (decoded : decode w = .instr i)
    (isAlu : i.isAlu = true) (computes : Computes i op) (dest : i.destByte = some (slotByte d))
    (operand : i.secondOperand s = some v2) : aluCycle op d v2 s = closedForm s w := by
  have hop := opcode_of_decode decoded
  have hd : byte1 w = slotByte d := destByte_of_operandsIn (operandsIn_of_decode decoded) dest
  have aluOp : AluOpcode w := by rw [AluOpcode, ← hop]; exact opcode_of_alu isAlu
  have result : resultNum s w = (alu op (s.read d) v2).toNat := by
    rw [computes, secondOperand_toNat (operandsIn_of_decode decoded) operand, hop, ← s.num_slotByte, ← hd]
    rfl
  have effect := aluCycle_effect op d v2 s
  refine eq_closedForm (by omega) (by omega) (by simp [decoded]) ?flag ?pointer ?others effect.status
    effect.parameters
  case flag =>
    rw [effect.flag, closedSlot_seven_result aluOp, result, flag_eq_ofNat]
  case pointer =>
    rw [effect.pointer]
    split
    case isTrue h6 => rw [closedSlot_six_result aluOp (h6 ▸ hd), result, add_one_eq_ofNat]
    case isFalse h6 =>
      rw [closedSlot_six_advance (fun _ e => h6 (slotByte_toNat_inj (congrArg BitVec.toNat (hd.symm.trans e))))
        (by omega), add_one_eq_ofNat]
  case others =>
    intro j h6 h7
    by_cases hj : j = d
    · subst hj
      rw [effect.result h6 h7, closedSlot_result aluOp hd h6 h7, result, ofNat_toNat_self]
    · rw [effect.frame j hj h6 h7, closedSlot_frame _ h6 h7, ofNat_toNat_self]
      exact fun _ e => hj (slotByte_toNat_inj (congrArg BitVec.toNat (e.symm.trans hd)))

/-- Outside the ALU class the next state is the closed form when slots 6 and 7 are, and the other slots are kept. -/
theorem eq_closedForm_of_not_alu (notAlu : ¬AluOpcode w)
    (recognised : 11 < (byte0 w).toNat → s.config.unknownOpcode ≠ .fault) (notQuit : (byte0 w).toNat ≠ 9)
    (flag : t.zf = BitVec.ofNat 16 (closedSlot s w 7)) (pointer : t.pc = BitVec.ofNat 16 (closedSlot s w 6))
    (others : ∀ j, j ≠ .x6 → j ≠ .x7 → t.read j = s.read j)
    (status : t.status = s.status) (parameters : SameParameters s t) : t = closedForm s w := by
  have good : decode w ≠ .badRegister := fun bad => notAlu (decode_eq_badRegister_iff.1 bad).1
  refine eq_closedForm recognised notQuit good flag pointer (fun j h6 h7 => ?_) status parameters
  rw [others j h6 h7, closedSlot_frame (fun isAlu => absurd isAlu notAlu) h6 h7, ofNat_toNat_self]

theorem advance_eq_closedForm (hop : (byte0 w).toNat = 0 ∧ s.config.nopZf = .preserve ∨
    (byte0 w).toNat = 11 ∧ s.zf = 0) : s.advance = closedForm s w := by
  have effect := pointerEffect_advance s
  refine eq_closedForm_of_not_alu (by omega) (by omega) (by omega) ?_ ?_ (fun j h6 _ => effect.frame j h6) rfl
    effect.parameters
  · rw [State.advance_zf]
    rcases hop with ⟨hop, policy⟩ | ⟨hop, -⟩
    · rw [closedSlot_seven_nop hop policy, ofNat_toNat_self]
    · rw [closedSlot_seven_jump (.inr hop), ofNat_toNat_self]
  · have untaken : ¬JumpTaken s w := by
      rcases hop with ⟨hop, -⟩ | ⟨hop, hz⟩
      · omega
      · simp [JumpTaken, hop, hz]
    rw [effect.pointer, closedSlot_six_advance (by omega) untaken, add_one_eq_ofNat]

theorem clearZf_advance_eq_closedForm (hop : (byte0 w).toNat = 0 ∧ s.config.nopZf = .clear ∨
    11 < (byte0 w).toNat ∧ s.config.unknownOpcode ≠ .fault) : s.clearZf.advance = closedForm s w := by
  refine eq_closedForm_of_not_alu (by omega) (fun gt => hop.elim (by omega) And.right) (by omega) ?_ ?_
    (fun j h6 h7 => clearZf_advance_read_of_ne s h6 h7) rfl (sameParameters_clearZf_advance s)
  · rw [State.advance_zf, State.clearZf_zf]
    rcases hop with ⟨hop, policy⟩ | ⟨hop, -⟩
    · rw [closedSlot_seven_nop_clear hop policy]; rfl
    · rw [closedSlot_seven_unrecognised hop]; rfl
  · rw [clearZf_advance_pc, closedSlot_six_advance (by omega) (by omega), add_one_eq_ofNat]

theorem jumpTo_eq_closedForm (taken : JumpTaken s w) : s.jumpTo (literal (byte1 w) (byte2 w)) = closedForm s w := by
  have effect := pointerEffect_jumpTo s (literal (byte1 w) (byte2 w))
  refine eq_closedForm_of_not_alu (by omega) (by omega) (by omega) ?_ ?_ (fun j h6 _ => effect.frame j h6) rfl
    effect.parameters
  · rw [State.jumpTo_zf, closedSlot_seven_jump (taken.imp_right And.left), ofNat_toNat_self]
  · rw [effect.pointer, closedSlot_six_target taken, ← literal_toNat, ofNat_toNat_self]

theorem exec_eq_closedForm {i : Instr} (decoded : decode w = .instr i) : exec i s = .next (closedForm s w) := by
  have hop := congrArg BitVec.toNat (opcode_of_decode decoded).symm
  have operands := operandsIn_of_decode decoded
  cases i with
  | addReg | addImm | subReg | subImm | xorReg | orReg | andReg | move =>
    obtain ⟨op, d, v2, computes, dest, operand, next⟩ := exec_of_alu s rfl (wellFormed_of_decode decoded)
    rw [next, aluCycle_eq_closedForm decoded rfl computes dest operand]
  | nop =>
    cases policy : s.config.nopZf with
    | preserve => rw [exec_nop_preserve policy, advance_eq_closedForm (.inl ⟨hop, policy⟩)]
    | clear => rw [exec_nop_clear policy, clearZf_advance_eq_closedForm (.inl ⟨hop, policy⟩)]
  | quit => rw [closedForm_quit hop]; rfl
  | jump imm =>
    obtain rfl := operands
    rw [← jumpTo_eq_closedForm (.inl hop)]; rfl
  | jumpIfZero imm =>
    obtain rfl := operands
    by_cases hz : s.zf = 0
    · rw [exec_jumpIfZero_untaken _ hz, advance_eq_closedForm (.inr ⟨hop, hz⟩)]
    · rw [exec_jumpIfZero_taken _ hz, jumpTo_eq_closedForm (.inr ⟨hop, hz⟩)]

theorem execDecoded_eq_closedForm (s : State) (w : InstrWord) :
    execDecoded (decode w) s = .next (closedForm s w) := by
  cases decoded : decode w with
  | instr i => exact exec_eq_closedForm decoded
  | badRegister => rw [closedForm_badRegister decoded]; rfl
  | unrecognised b =>
    have hop := opcode_gt_of_decode decoded
    rw [execDecoded]
    cases policy : s.config.unknownOpcode with
    | fault => rw [execUnrecognised_fault policy, closedForm_illegalOpcode hop policy]
    | legacyNop =>
      rw [execUnrecognised_legacyNop policy, clearZf_advance_eq_closedForm (.inr ⟨hop, by simp [policy]⟩)]

end

/-- Settles O9: the cycle fetches the word and dispatches it, and each dispatched word computes its closed form. -/
theorem stepMatchesClosedForm : Obligations.StepMatchesClosedForm := by
  intro s w running inRange fetched
  rw [step_of_fetch running inRange fetched, execDecoded_eq_closedForm]

end Sys2Proof.Machine

/-! ### Another program and other parameters (20_memory.md R31, 60_exceptions.md R142) -/

namespace Sys2Proof.Machine

/-- The state with another program memory and other parameters. -/
def State.withParameters (s : State) (m : Memory) (c : Config) : State := { s with program := m, config := c }

theorem State.withProgram_eq (s : State) (m : Memory) : s.withProgram m = s.withParameters m s.config := rfl

theorem State.withOob_eq (s : State) (b : Bool) :
    s.withOob b = s.withParameters s.program { s.config with oobIsError := b } := rfl

/-- mapNext sees of its function only what it does to the next state. -/
theorem mapNext_congr {f g : State → State} {o : Host.Outcome State Fault Refusal}
    (h : ∀ t, o = .next t → f t = g t) : mapNext f o = mapNext g o := by
  cases o with
  | next t => exact congrArg _ (h t rfl)
  | fault r | refused r => rfl

section
variable {s : State} {m : Memory} {c : Config}

theorem execRR_withParameters (op : AluOp) (rd rs : Byte) :
    execRR op rd rs (s.withParameters m c) = mapNext (·.withParameters m c) (execRR op rd rs s) := by
  unfold execRR
  cases slotOf rd <;> cases slotOf rs <;> rfl

theorem execRI_withParameters (op : AluOp) (rd : Byte) (imm : Word) :
    execRI op rd imm (s.withParameters m c) = mapNext (·.withParameters m c) (execRI op rd imm s) := by
  unfold execRI
  cases slotOf rd <;> rfl

/-- Of the parameters an instruction reads NOP_ZF alone, and nothing of the program. -/
theorem exec_withParameters (nopZf : c.nopZf = s.config.nopZf) (i : Instr) :
    exec i (s.withParameters m c) = mapNext (·.withParameters m c) (exec i s) := by
  cases i with
  | addReg | subReg | xorReg | orReg | andReg | move => exact execRR_withParameters ..
  | addImm | subImm => exact execRI_withParameters ..
  | quit | jump => rfl
  | nop =>
    cases policy : s.config.nopZf with
    | preserve => rw [exec_nop_preserve policy, exec_nop_preserve (nopZf.trans policy)]; rfl
    | clear => rw [exec_nop_clear policy, exec_nop_clear (nopZf.trans policy)]; rfl
  | jumpIfZero imm =>
    by_cases hz : s.zf = 0
    · rw [exec_jumpIfZero_untaken imm hz, exec_jumpIfZero_untaken (s := s.withParameters m c) imm hz]; rfl
    · rw [exec_jumpIfZero_taken imm hz, exec_jumpIfZero_taken (s := s.withParameters m c) imm hz]; rfl

theorem execDecoded_withParameters (nopZf : c.nopZf = s.config.nopZf)
    (unknownOpcode : c.unknownOpcode = s.config.unknownOpcode) (d : Decoded) :
    execDecoded d (s.withParameters m c) = mapNext (·.withParameters m c) (execDecoded d s) := by
  cases d with
  | instr i => exact exec_withParameters nopZf i
  | badRegister => rfl
  | unrecognised b =>
    rw [execDecoded, execDecoded]
    cases policy : s.config.unknownOpcode with
    | fault => rw [execUnrecognised_fault policy, execUnrecognised_fault (unknownOpcode.trans policy)]; rfl
    | legacyNop =>
      rw [execUnrecognised_legacyNop policy, execUnrecognised_legacyNop (unknownOpcode.trans policy)]; rfl

/-- A step reads of the program the word at the instruction pointer, and of the parameters all but OOB_IS_ERROR. -/
theorem step_withParameters (word : m.read s.pc.toNat = s.program.read s.pc.toNat)
    (capacity : c.capacity = s.config.capacity) (nopZf : c.nopZf = s.config.nopZf)
    (unknownOpcode : c.unknownOpcode = s.config.unknownOpcode) :
    step (s.withParameters m c) = mapNext (·.withParameters m c) (step s) := by
  by_cases running : s.status = .running
  · have inRange : (s.withParameters m c).inRange = s.inRange :=
      congrArg (fun n => decide (s.pc.toNat < n)) capacity
    have fetch : (s.withParameters m c).fetch = s.fetch := word
    rw [step_of_running running, step_of_running (s := s.withParameters m c) running, cycle, cycle, inRange, fetch]
    cases s.inRange with
    | false => rfl
    | true =>
      cases s.fetch with
      | none => rfl
      | some w => exact execDecoded_withParameters nopZf unknownOpcode _
  · rw [step_of_ended running, step_of_ended (s := s.withParameters m c) running]; rfl

end

/-- Settles O16: the program is one of the parameters of the step, which reads one word of it and keeps it. -/
theorem stepDependsOnlyOnFetchedWord : Obligations.StepDependsOnlyOnFetchedWord := by
  intro s m word
  rw [s.withProgram_eq, step_withParameters word rfl rfl rfl]
  refine mapNext_congr fun t h => ?_
  rw [t.withProgram_eq, (step_sameParameters h).2]

/-- Settles O23: no step reads OOB_IS_ERROR, and the verdict is a function of the status and of it. -/
theorem verdictPolicyDoesNotTouchTheMachine : Obligations.VerdictPolicyDoesNotTouchTheMachine := by
  refine ⟨fun s b => ?_, fun s quit => ?_, fun s outside isError => ?_, fun s outside isError => ?_⟩
  · refine (step_withParameters (c := { s.config with oobIsError := b }) rfl rfl rfl rfl).trans ?_
    refine mapNext_congr fun t h => ?_
    obtain ⟨program, config⟩ := step_sameParameters h
    rw [t.withOob_eq, program, config]
  · simp [hostVerdict, quit]
  · simp [hostVerdict, outside, isError]
  · simp [hostVerdict, outside, isError]

/-! ### Loading, reset and the ports (70_reset_and_hazards.md R160 to R163, 10_state.md R22 to R28) -/

/-- A list of words placed from address `k` upward reads the `a`-th word at `k + a`. -/
theorem lookupWord_zipIdx (ws : List InstrWord) (k a : Nat) :
    lookupWord ((ws.zipIdx k).map fun p => (p.2, p.1)) (k + a) = ws[a]? := by
  induction ws generalizing k a with
  | nil => rfl
  | cons w ws ih =>
    rw [List.zipIdx_cons, List.map_cons, lookupWord]
    cases a with
    | zero => simp
    | succ a => simpa [Nat.add_assoc, Nat.add_comm 1] using ih (k + 1) a

theorem Memory.read_ofWords (ws : List InstrWord) (a : Nat) : (Memory.ofWords ws).read a = ws[a]? :=
  (congrArg (Memory.read _) (Nat.zero_add a).symm).trans (lookupWord_zipIdx ws 0 a)

theorem Memory.lt_length_of_mem_ofWords {ws : List InstrWord} {cell : ProgramCell}
    (h : cell ∈ (Memory.ofWords ws).cells) : cell.1 < ws.length := by
  obtain ⟨⟨w, k⟩, mem, rfl⟩ := List.mem_map.1 h
  simpa using (List.mem_zipIdx mem).2.1

/-- Settles O19: the cells are the words with their positions as addresses, and the reset keeps the program and the
parameters. -/
theorem bootLoadsWordsFromAddressZero : Obligations.BootLoadsWordsFromAddressZero := by
  intro ws c entry wf fits
  have inside : ∀ cell ∈ (boot ws c entry).program.cells, cell.1 < c.capacity := fun _ h =>
    Nat.lt_of_lt_of_le (Memory.lt_length_of_mem_ofWords h) fits
  exact ⟨⟨Memory.ofWords_wf ws, wf, inside, .inl rfl⟩, Memory.read_ofWords ws, rfl, rfl, rfl⟩

/-- Settles O18: the reset state is a reset with entry offset 0 and an empty program. -/
theorem resetStateMeetsInvariant : Obligations.ResetStateMeetsInvariant := by
  refine ⟨by decide, fun i => ?_, rfl⟩
  by_cases h6 : i = .x6
  · exact h6 ▸ rfl
  · exact State.resetTo_read_of_ne State.reset 0 h6

theorem clockEdge_step (s : State) (entry : Word) : clockEdge { rst := false, entry := entry } s = step s := rfl

/-- Settles O21: the reset edge's fields one by one, and the range check of the first cycle. -/
theorem resetClearsEverySlotButPointer : Obligations.ResetClearsEverySlotButPointer := fun s entry =>
  ⟨_, clockEdge_reset s entry, rfl, fun _ h6 => s.resetTo_read_of_ne entry h6, rfl, ⟨rfl, rfl⟩,
    fun outside => (clockEdge_step ..).trans (step_of_outOfRange rfl outside)⟩

/-- Settles O22: the ports are read off the state, and an edge without reset is the step. -/
theorem portsShowTheState : Obligations.PortsShowTheState := by
  refine ⟨fun s => ⟨rfl, fun _ => rfl, ?_⟩, clockEdge_step⟩
  rw [outPorts]
  cases s.status <;> rfl

end Sys2Proof.Machine

/-! ### The lexer on digits (30_encoding.md R67, R68) -/

namespace Sys2Proof.Machine

/-- The decimal value of digits read after the value `v`. -/
def decimalFrom (v : Nat) (ds : List Nat) : Nat := ds.foldl (fun v x => v * 10 + x) v

/-- A run of digits inside a number multiplies and adds, and reducing at each digit is reducing at the end. -/
theorem lexFrom_number_digits (v : Nat) {ds : List Nat} (digits : ∀ x ∈ ds, x ≤ 9) (cs : List Char) :
    lexFrom (.number (v % 65536)) (ds.map digitChar ++ cs) = lexFrom (.number (decimalFrom v ds % 65536)) cs := by
  induction ds generalizing v with
  | nil => rfl
  | cons x xs ih =>
    rw [List.forall_mem_cons] at digits
    have reduce : (v % 65536 * 10 + x) % 65536 = (v * 10 + x) % 65536 := by omega
    rw [List.map_cons, List.cons_append, lexFrom_number_digit _ digits.1, reduce, ih _ digits.2]
    rfl

/-- A run of digits at the start of a token. -/
theorem lexFrom_start_digits {d : Nat} {ds : List Nat} (digits : ∀ x ∈ d :: ds, x ≤ 9) (cs : List Char) :
    lexFrom .start ((d :: ds).map digitChar ++ cs) = lexFrom (.number (decimalFrom 0 (d :: ds) % 65536)) cs := by
  rw [List.forall_mem_cons] at digits
  have small : d = (0 * 10 + d) % 65536 := by omega
  rw [List.map_cons, List.cons_append, lexFrom_start_digit digits.1]
  conv_lhs => rw [small]
  exact lexFrom_number_digits _ digits.2 cs

theorem ofNat_mod_65536 (n : Nat) : BitVec.ofNat 16 (n % 65536) = BitVec.ofNat 16 n :=
  BitVec.eq_of_toNat_eq (by simp)

/-- Settles O43: the run is one number, and the end of the text emits it. -/
theorem digitRunLexesModulo65536 : Obligations.DigitRunLexesModulo65536 := by
  intro d ds digits
  have run := lexFrom_start_digits digits []
  rw [List.append_nil] at run
  rw [lex, run, lexFrom, lexEnd, ofNat_mod_65536, decimalFrom]

/-! ### The lexer on the printed text (30_encoding.md R66, R67; log 17) -/

section
variable {cs : List Char} {rest : List Token}

/-- One character whose meaning is known, before a text whose tokens are known. -/
theorem lexFrom_cons {m m' : LexMode} {c : Char} {ts : List Token} (char : lexChar m c = .ok (ts, m'))
    (tail : lexFrom m' cs = .ok rest) : lexFrom m (c :: cs) = .ok (ts ++ rest) := by
  simp only [lexFrom, char, tail]

theorem lexFrom_registerText {b : Byte} (ok : regByteOk b) (tail : lexFrom .start cs = .ok rest) :
    lexFrom .start (registerText b ++ cs) = .ok (.register b :: rest) := by
  have index : lexChar .afterR (digitChar b.toNat) = .ok ([.register b], .start) := by
    simp [lexChar, digitValue_digitChar (Nat.le_trans ok (by decide : 7 ≤ 9)), ok]
  exact lexFrom_cons (ts := []) rfl (lexFrom_cons index tail)

/-- The five digits of a literal. -/
def literalDigits (v : Word) : List Nat :=
  [v.toNat / 10000, v.toNat / 1000 % 10, v.toNat / 100 % 10, v.toNat / 10 % 10, v.toNat % 10]

theorem literalText_eq_digits (v : Word) : literalText v = (literalDigits v).map digitChar := rfl

theorem literalDigits_le (v : Word) : ∀ x ∈ literalDigits v, x ≤ 9 := by
  have := v.isLt
  simp only [literalDigits, List.forall_mem_cons]
  refine ⟨?_, ?_, ?_, ?_, ?_, nofun⟩ <;> omega

theorem decimalFrom_literalDigits (v : Word) : decimalFrom 0 (literalDigits v) = v.toNat := by
  simp only [decimalFrom, literalDigits, List.foldl_cons, List.foldl_nil]
  omega

/-- A literal is ended by the end of its line. -/
theorem lexFrom_literalText (v : Word) (tail : lexFrom .start cs = .ok rest) :
    lexFrom .start (literalText v ++ '\n' :: cs) = .ok (.literal v :: rest) := by
  have value : BitVec.ofNat 16 (decimalFrom 0 (literalDigits v) % 65536) = v := by
    rw [ofNat_mod_65536, decimalFrom_literalDigits, ofNat_toNat_self]
  refine (lexFrom_start_digits (literalDigits_le v) ('\n' :: cs)).trans ?_
  exact (lexFrom_cons rfl tail).trans (congrArg (fun u => Except.ok (Token.literal u :: rest)) value)

/-- A mnemonic with two operands, the second of which ends its line. -/
theorem lexFrom_twoOperandText {mnemonic : Char} {op : Byte} {first second : List Char}
    (opcode : lexChar .start mnemonic = .ok ([.opcode op], .skip))
    (operands : lexFrom .start (first ++ ',' :: (second ++ '\n' :: cs)) = .ok rest) :
    lexFrom .start (twoOperandText mnemonic first second ++ '\n' :: cs) = .ok (.opcode op :: rest) := by
  simp only [twoOperandText, List.cons_append, List.append_assoc]
  exact lexFrom_cons opcode (lexFrom_cons (ts := []) rfl operands)

/-- The line of an instruction of format RR. -/
theorem lexFrom_lineRR {mnemonic : Char} {op rd rs : Byte}
    (opcode : lexChar .start mnemonic = .ok ([.opcode op], .skip))
    (hrd : regByteOk rd) (hrs : regByteOk rs) (tail : lexFrom .start cs = .ok rest) :
    lexFrom .start (twoOperandText mnemonic (registerText rd) (registerText rs) ++ '\n' :: cs) =
      .ok (.opcode op :: .register rd :: .register rs :: rest) := by
  have newline : lexFrom .start ('\n' :: cs) = .ok rest := lexFrom_cons (ts := []) rfl tail
  have second := lexFrom_registerText hrs newline
  exact lexFrom_twoOperandText opcode (lexFrom_registerText hrd (lexFrom_cons (ts := []) rfl second))

/-- The line of an instruction of format RI. -/
theorem lexFrom_lineRI {mnemonic : Char} {op rd : Byte} {imm : Word}
    (opcode : lexChar .start mnemonic = .ok ([.opcode op], .skip)) (hrd : regByteOk rd)
    (tail : lexFrom .start cs = .ok rest) :
    lexFrom .start (twoOperandText mnemonic (registerText rd) (literalText imm) ++ '\n' :: cs) =
      .ok (.opcode op :: .register rd :: .literal imm :: rest) :=
  lexFrom_twoOperandText opcode
    (lexFrom_registerText hrd (lexFrom_cons (ts := []) rfl (lexFrom_literalText imm tail)))

/-- The line of an instruction of format N. -/
theorem lexFrom_lineN {mnemonic : Char} {op : Byte} (opcode : lexChar .start mnemonic = .ok ([.opcode op], .skip))
    (tail : lexFrom .start cs = .ok rest) : lexFrom .start (mnemonic :: '\n' :: cs) = .ok (.opcode op :: rest) :=
  lexFrom_cons opcode (lexFrom_cons (ts := []) rfl tail)

/-- The tokens of an instruction: its opcode, then its operands in order (30_encoding.md R66). -/
def instrTokens (i : Instr) : List Token :=
  .opcode i.opcode :: match i with
    | .nop | .quit => []
    | .addReg rd rs | .subReg rd rs | .xorReg rd rs | .orReg rd rs | .andReg rd rs | .move rd rs =>
      [.register rd, .register rs]
    | .addImm rd imm | .subImm rd imm => [.register rd, .literal imm]
    | .jump imm | .jumpIfZero imm => [.literal imm]

theorem lexFrom_instrText {i : Instr} (wf : i.wellFormed = true) (tail : lexFrom .start cs = .ok rest) :
    lexFrom .start (instrText i ++ '\n' :: cs) = .ok (instrTokens i ++ rest) := by
  cases i with
  | nop | quit => exact lexFrom_lineN rfl tail
  | addReg rd rs | subReg rd rs | xorReg rd rs | orReg rd rs | andReg rd rs | move rd rs =>
    obtain ⟨hrd, hrs⟩ : regByteOk rd ∧ regByteOk rs := by simpa [Instr.wellFormed] using wf
    exact lexFrom_lineRR rfl hrd hrs tail
  | addImm rd imm | subImm rd imm =>
    exact lexFrom_lineRI rfl (by simpa [Instr.wellFormed] using wf) tail
  | jump imm =>
    exact lexFrom_cons (ts := []) rfl (lexFrom_cons (ts := [.opcode 10]) rfl (lexFrom_literalText imm tail))
  | jumpIfZero imm =>
    exact lexFrom_cons (ts := []) rfl (lexFrom_cons (ts := [.opcode 11]) rfl
      (lexFrom_cons (ts := []) rfl (lexFrom_literalText imm tail)))

end

theorem lex_programText {is : List Instr} (wf : ∀ i ∈ is, i.wellFormed = true) :
    lex (programText is) = .ok (is.flatMap instrTokens) := by
  induction is with
  | nil => rfl
  | cons i is ih =>
    rw [List.forall_mem_cons] at wf
    exact lexFrom_instrText wf.1 (ih wf.2)

/-! ### The assembler on the tokens of an instruction (30_encoding.md R69) -/

/-- Between instructions, the tokens of one give its canonical word: the operands fill the bytes after the
opcode. -/
theorem assembleFrom_instrTokens (i : Instr) {ts : List Token} {ws : List InstrWord}
    (tail : assembleFrom [] [] ts = .ok ws) : assembleFrom [] [] (instrTokens i ++ ts) = .ok (encode i :: ws) := by
  cases i with
  | nop | quit => simp [instrTokens, assembleFrom, signature, Instr.opcode, tail, emitWord]; rfl
  | addReg | subReg | xorReg | orReg | andReg | move | addImm | subImm | jump | jumpIfZero =>
    simp [instrTokens, assembleFrom, signature, Instr.opcode, packToken, tail, emitWord]; rfl

theorem assembleTokens_instrTokens (is : List Instr) :
    assembleTokens (is.flatMap instrTokens) = .ok (is.map encode) := by
  induction is with
  | nil => rfl
  | cons i is ih => exact assembleFrom_instrTokens i ih

/-- Settles O44: the text lexes to the tokens of its instructions, and those assemble to the canonical words. -/
theorem assembleOfProgramText : Obligations.AssembleOfProgramText := by
  intro is wf
  simp only [assemble, lex_programText wf, assembleTokens_instrTokens]

end Sys2Proof.Machine
